-- ==== Sys2Proof/Word.lean ====
section
/-! DEFINITION. The word of WISC-SP06 (00_scope.md R7, R8): 16 bits, bit 15 most significant, at once a bit string, an
unsigned number and a two's complement number. It is the width of a register, of an instruction and of a memory cell,
and of every address. -/

namespace Sys2Proof

/-- A 16-bit word (R6, R8). `+` and `-` on it are modulo 2^16, as R8 defines them. -/
abbrev Word := BitVec 16

end Sys2Proof
end

