-- ==== Sys2Proof/Syntax.lean ====
section
/-! DEFINITION. The syntax of WISC-SP06, whole: one constructor of `Instr` per row of spec/opcode_table.json, in the table's
order. The operands stand in the assembler's order (30_encoding.md R76): the destination first, though its field is not the
first in the word. An immediate is its field of the instruction word, before any extension (R67, R68, R69). The ignored bits
of R73 are no operands. -/

namespace Sys2Proof

/-- The eight general registers (10_state.md R20). None is hardwired; R7 is the link register of JAL and JALR (R21). -/
inductive Reg where
  | r0 | r1 | r2 | r3 | r4 | r5 | r6 | r7
deriving DecidableEq, Repr

/-- The 38 instructions (30_encoding.md R72). -/
inductive Instr where
  /-- `HALT`, `00000 xxxxxxxxxxx` (R190): cease instruction issue. -/
  | halt
  /-- `NOP`, `00001 xxxxxxxxxxx` (R191): no operation. -/
  | nop
  /-- `SIIC Rs`, `00010 sss xxxxxxxx` (R200): set the instruction issue counter from Rs; NOP without the extension. -/
  | siic (rs : Reg)
  /-- `RTI`, `00011 xxxxxxxxxxx` (R201): return from interrupt; NOP without the extension. -/
  | rti
  /-- `J displacement`, `00100 ddddddddddd` (R100): jump. -/
  | j (disp : BitVec 11)
  /-- `JR Rs, immediate`, `00101 sss iiiiiiii` (R101): jump register. -/
  | jr (rs : Reg) (imm : BitVec 8)
  /-- `JAL displacement`, `00110 ddddddddddd` (R102): jump and link. -/
  | jal (disp : BitVec 11)
  /-- `JALR Rs, immediate`, `00111 sss iiiiiiii` (R103): jump and link register. -/
  | jalr (rs : Reg) (imm : BitVec 8)
  /-- `ADDI Rd, Rs, immediate`, `01000 sss ddd iiiii` (R110): add immediate. -/
  | addi (rd rs : Reg) (imm : BitVec 5)
  /-- `SUBI Rd, Rs, immediate`, `01001 sss ddd iiiii` (R111): subtract from immediate (immediate minus Rs). -/
  | subi (rd rs : Reg) (imm : BitVec 5)
  /-- `XORI Rd, Rs, immediate`, `01010 sss ddd iiiii` (R112): exclusive-or immediate. -/
  | xori (rd rs : Reg) (imm : BitVec 5)
  /-- `ANDNI Rd, Rs, immediate`, `01011 sss ddd iiiii` (R113): and-not immediate. -/
  | andni (rd rs : Reg) (imm : BitVec 5)
  /-- `BEQZ Rs, immediate`, `01100 sss iiiiiiii` (R150): branch if equal to zero. -/
  | beqz (rs : Reg) (imm : BitVec 8)
  /-- `BNEZ Rs, immediate`, `01101 sss iiiiiiii` (R151): branch if not equal to zero. -/
  | bnez (rs : Reg) (imm : BitVec 8)
  /-- `BLTZ Rs, immediate`, `01110 sss iiiiiiii` (R152): branch if less than zero. -/
  | bltz (rs : Reg) (imm : BitVec 8)
  /-- `BGEZ Rs, immediate`, `01111 sss iiiiiiii` (R153): branch if greater than or equal to zero. -/
  | bgez (rs : Reg) (imm : BitVec 8)
  /-- `ST Rd, Rs, immediate`, `10000 sss ddd iiiii` (R130): store the register `rd` at base `rs`. -/
  | st (rd rs : Reg) (imm : BitVec 5)
  /-- `LD Rd, Rs, immediate`, `10001 sss ddd iiiii` (R131): load the register `rd` from base `rs`. -/
  | ld (rd rs : Reg) (imm : BitVec 5)
  /-- `SLBI Rs, immediate`, `10010 sss iiiiiiii` (R141): shift and load byte immediate; `rs` is read and written. -/
  | slbi (rs : Reg) (imm : BitVec 8)
  /-- `STU Rd, Rs, immediate`, `10011 sss ddd iiiii` (R132): store the register `rd` at base `rs` and update `rs`. -/
  | stu (rd rs : Reg) (imm : BitVec 5)
  /-- `ROLI Rd, Rs, immediate`, `10100 sss ddd iiiii` (R114): rotate left immediate. -/
  | roli (rd rs : Reg) (imm : BitVec 5)
  /-- `SLLI Rd, Rs, immediate`, `10101 sss ddd iiiii` (R115): shift left logical immediate. -/
  | slli (rd rs : Reg) (imm : BitVec 5)
  /-- `SRAI Rd, Rs, immediate`, `10110 sss ddd iiiii` (R116): shift right arithmetic immediate. -/
  | srai (rd rs : Reg) (imm : BitVec 5)
  /-- `SRLI Rd, Rs, immediate`, `10111 sss ddd iiiii` (R117): shift right logical immediate. -/
  | srli (rd rs : Reg) (imm : BitVec 5)
  /-- `LBI Rs, immediate`, `11000 sss iiiiiiii` (R140): load byte immediate; `rs` is the destination. -/
  | lbi (rs : Reg) (imm : BitVec 8)
  /-- `BTR Rd, Rs`, `11001 sss xxx ddd xx` (R160): bit reverse. -/
  | btr (rd rs : Reg)
  /-- `ROL Rd, Rs, Rt`, `11010 sss ttt ddd 00` (R165): rotate left. -/
  | rol (rd rs rt : Reg)
  /-- `SLL Rd, Rs, Rt`, `11010 sss ttt ddd 01` (R166): shift left logical. -/
  | sll (rd rs rt : Reg)
  /-- `SRA Rd, Rs, Rt`, `11010 sss ttt ddd 10` (R167): shift right arithmetic. -/
  | sra (rd rs rt : Reg)
  /-- `SRL Rd, Rs, Rt`, `11010 sss ttt ddd 11` (R168): shift right logical. -/
  | srl (rd rs rt : Reg)
  /-- `ADD Rd, Rs, Rt`, `11011 sss ttt ddd 00` (R161): add. -/
  | add (rd rs rt : Reg)
  /-- `SUB Rd, Rs, Rt`, `11011 sss ttt ddd 01` (R162): subtract (Rt minus Rs). -/
  | sub (rd rs rt : Reg)
  /-- `XOR Rd, Rs, Rt`, `11011 sss ttt ddd 10` (R163): exclusive or. -/
  | xor (rd rs rt : Reg)
  /-- `ANDN Rd, Rs, Rt`, `11011 sss ttt ddd 11` (R164): and-not. -/
  | andn (rd rs rt : Reg)
  /-- `SEQ Rd, Rs, Rt`, `11100 sss ttt ddd xx` (R169): set if equal. -/
  | seq (rd rs rt : Reg)
  /-- `SLT Rd, Rs, Rt`, `11101 sss ttt ddd xx` (R170): set if less than, signed. -/
  | slt (rd rs rt : Reg)
  /-- `SLE Rd, Rs, Rt`, `11110 sss ttt ddd xx` (R171): set if less than or equal, signed. -/
  | sle (rd rs rt : Reg)
  /-- `SCO Rd, Rs, Rt`, `11111 sss ttt ddd xx` (R172): set if carry out. -/
  | sco (rd rs rt : Reg)
deriving DecidableEq, Repr

end Sys2Proof
end

