-- ==== Sys2Proof/WellFormed.lean ====
section
/-! DEFINITION. Which instructions an assembler writes (30_encoding.md R73, R78). The types of the operands already hold every
other range of R78: a register is one of eight, an immediate or displacement is its field. What is left is the shift amount:
"shift amounts 0..15 (the assembler leaves bit 4 zero)". A shift immediate with bit 4 set is a legal word all the same, and
decodes and runs (R67, R74, R119): no meaning and no step asks for `wellFormed`. -/

namespace Sys2Proof

/-- A shift amount field as an assembler writes it: bit 4 clear (R78). -/
def shiftFieldCanonical (imm : BitVec 5) : Bool := !imm.getLsbD 4

/-- The instruction is one that an assembler writes (R78). -/
def Instr.wellFormed (i : Instr) : Bool :=
  match i with
  | .roli _ _ imm => shiftFieldCanonical imm
  | .slli _ _ imm => shiftFieldCanonical imm
  | .srai _ _ imm => shiftFieldCanonical imm
  | .srli _ _ imm => shiftFieldCanonical imm
  | .halt | .nop | .siic _ | .rti | .j _ | .jr _ _ | .jal _ | .jalr _ _
  | .addi _ _ _ | .subi _ _ _ | .xori _ _ _ | .andni _ _ _
  | .beqz _ _ | .bnez _ _ | .bltz _ _ | .bgez _ _
  | .st _ _ _ | .ld _ _ _ | .slbi _ _ | .stu _ _ _ | .lbi _ _ | .btr _ _
  | .rol _ _ _ | .sll _ _ _ | .sra _ _ _ | .srl _ _ _
  | .add _ _ _ | .sub _ _ _ | .xor _ _ _ | .andn _ _ _
  | .seq _ _ _ | .slt _ _ _ | .sle _ _ _ | .sco _ _ _ => true

end Sys2Proof
end

