-- ==== Sys2Proof/Decode.lean ====
section
/-! DEFINITION. Decoding and encoding (30_encoding.md R60 to R73). An instruction is one 16-bit word (R60), its opcode in bits
15:11 (the spec's decision D1, log 7). The 5-bit opcode alone selects the instruction, but under 11010 and 11011 the 2-bit
extension in bits 1:0 selects one of four (R71). Every word decodes, so nothing is rejected (R74); bits written `x` in a
pattern are ignored by `decode` and 0 in `encode` (R73, the spec's decision D5, log 10). -/

namespace Sys2Proof

/-- The register a 3-bit field names (10_state.md R20). DEDUCED by the spec (log 20): the plain binary numbering. -/
def Reg.ofBits (b : BitVec 3) : Reg :=
  match b with
  | 0b000#3 => .r0
  | 0b001#3 => .r1
  | 0b010#3 => .r2
  | 0b011#3 => .r3
  | 0b100#3 => .r4
  | 0b101#3 => .r5
  | 0b110#3 => .r6
  | 0b111#3 => .r7

/-- The 3-bit field that names a register (10_state.md R20). -/
def Reg.bits (r : Reg) : BitVec 3 :=
  match r with
  | .r0 => 0b000#3
  | .r1 => 0b001#3
  | .r2 => 0b010#3
  | .r3 => 0b011#3
  | .r4 => 0b100#3
  | .r5 => 0b101#3
  | .r6 => 0b110#3
  | .r7 => 0b111#3

/-- "Op Code", bits 15:11, in every format (R60). -/
def opField (w : Word) : BitVec 5 := w.extractLsb' 11 5

/-- "Rs", bits 10:8, in I-format 1, I-format 2 and the R-format (R63, R64, R65). -/
def rsField (w : Word) : Reg := Reg.ofBits (w.extractLsb' 8 3)

/-- "Rd" of I-format 1, bits 7:5 (R63). -/
def rdField1 (w : Word) : Reg := Reg.ofBits (w.extractLsb' 5 3)

/-- "Rt" of the R-format, bits 7:5 (R65). -/
def rtField (w : Word) : Reg := Reg.ofBits (w.extractLsb' 5 3)

/-- "Rd" of the R-format, bits 4:2 (R65). -/
def rdField (w : Word) : Reg := Reg.ofBits (w.extractLsb' 2 3)

/-- "Op Code Extension" of the R-format, bits 1:0 (R65). -/
def extField (w : Word) : BitVec 2 := w.extractLsb' 0 2

/-- The 5-bit immediate, bits 4:0 (R63, R67). -/
def imm5Field (w : Word) : BitVec 5 := w.extractLsb' 0 5

/-- The 8-bit immediate, bits 7:0 (R64, R68). -/
def imm8Field (w : Word) : BitVec 8 := w.extractLsb' 0 8

/-- The 11-bit displacement, bits 10:0 (R62, R69). -/
def disp11Field (w : Word) : BitVec 11 := w.extractLsb' 0 11

/-- The instruction a word stands for: the opcode map of R72, row by row, the 5-bit opcode read as its
high 2 bits and its low 3 bits. Total (R71, R74). -/
def decode (w : Word) : Instr :=
  match (opField w).extractLsb' 3 2, (opField w).extractLsb' 0 3 with
  | 0b00#2, 0b000#3 => .halt
  | 0b00#2, 0b001#3 => .nop
  | 0b00#2, 0b010#3 => .siic (rsField w)
  | 0b00#2, 0b011#3 => .rti
  | 0b00#2, 0b100#3 => .j (disp11Field w)
  | 0b00#2, 0b101#3 => .jr (rsField w) (imm8Field w)
  | 0b00#2, 0b110#3 => .jal (disp11Field w)
  | 0b00#2, 0b111#3 => .jalr (rsField w) (imm8Field w)
  | 0b01#2, 0b000#3 => .addi (rdField1 w) (rsField w) (imm5Field w)
  | 0b01#2, 0b001#3 => .subi (rdField1 w) (rsField w) (imm5Field w)
  | 0b01#2, 0b010#3 => .xori (rdField1 w) (rsField w) (imm5Field w)
  | 0b01#2, 0b011#3 => .andni (rdField1 w) (rsField w) (imm5Field w)
  | 0b01#2, 0b100#3 => .beqz (rsField w) (imm8Field w)
  | 0b01#2, 0b101#3 => .bnez (rsField w) (imm8Field w)
  | 0b01#2, 0b110#3 => .bltz (rsField w) (imm8Field w)
  | 0b01#2, 0b111#3 => .bgez (rsField w) (imm8Field w)
  | 0b10#2, 0b000#3 => .st (rdField1 w) (rsField w) (imm5Field w)
  | 0b10#2, 0b001#3 => .ld (rdField1 w) (rsField w) (imm5Field w)
  | 0b10#2, 0b010#3 => .slbi (rsField w) (imm8Field w)
  | 0b10#2, 0b011#3 => .stu (rdField1 w) (rsField w) (imm5Field w)
  | 0b10#2, 0b100#3 => .roli (rdField1 w) (rsField w) (imm5Field w)
  | 0b10#2, 0b101#3 => .slli (rdField1 w) (rsField w) (imm5Field w)
  | 0b10#2, 0b110#3 => .srai (rdField1 w) (rsField w) (imm5Field w)
  | 0b10#2, 0b111#3 => .srli (rdField1 w) (rsField w) (imm5Field w)
  | 0b11#2, 0b000#3 => .lbi (rsField w) (imm8Field w)
  | 0b11#2, 0b001#3 => .btr (rdField w) (rsField w)
  | 0b11#2, 0b010#3 =>
    match extField w with
    | 0b00#2 => .rol (rdField w) (rsField w) (rtField w)
    | 0b01#2 => .sll (rdField w) (rsField w) (rtField w)
    | 0b10#2 => .sra (rdField w) (rsField w) (rtField w)
    | 0b11#2 => .srl (rdField w) (rsField w) (rtField w)
  | 0b11#2, 0b011#3 =>
    match extField w with
    | 0b00#2 => .add (rdField w) (rsField w) (rtField w)
    | 0b01#2 => .sub (rdField w) (rsField w) (rtField w)
    | 0b10#2 => .xor (rdField w) (rsField w) (rtField w)
    | 0b11#2 => .andn (rdField w) (rsField w) (rtField w)
  | 0b11#2, 0b100#3 => .seq (rdField w) (rsField w) (rtField w)
  | 0b11#2, 0b101#3 => .slt (rdField w) (rsField w) (rtField w)
  | 0b11#2, 0b110#3 => .sle (rdField w) (rsField w) (rtField w)
  | 0b11#2, 0b111#3 => .sco (rdField w) (rsField w) (rtField w)

/-- A word of the J-format (R62), and of the layout `N` with the eleven ignored bits as `x` (R61). -/
def packJ (op : BitVec 5) (x : BitVec 11) : Word := op ++ x

/-- A word of I-format 1 (R63): opcode, Rs, Rd, immediate. -/
def packI1 (op : BitVec 5) (rs rd : BitVec 3) (imm : BitVec 5) : Word := op ++ rs ++ rd ++ imm

/-- A word of I-format 2 (R64): opcode, Rs, immediate. -/
def packI2 (op : BitVec 5) (rs : BitVec 3) (imm : BitVec 8) : Word := op ++ rs ++ imm

/-- A word of the R-format (R65): opcode, Rs, Rt, Rd, opcode extension. -/
def packR (op : BitVec 5) (rs rt rd : BitVec 3) (ext : BitVec 2) : Word := op ++ rs ++ rt ++ rd ++ ext

/-- The word of an instruction (R62 to R65, R72), with 0 in every ignored position (R73). -/
def encode (i : Instr) : Word :=
  match i with
  | .halt => packJ 0b00000#5 0#11
  | .nop => packJ 0b00001#5 0#11
  | .siic rs => packI2 0b00010#5 rs.bits 0#8
  | .rti => packJ 0b00011#5 0#11
  | .j disp => packJ 0b00100#5 disp
  | .jr rs imm => packI2 0b00101#5 rs.bits imm
  | .jal disp => packJ 0b00110#5 disp
  | .jalr rs imm => packI2 0b00111#5 rs.bits imm
  | .addi rd rs imm => packI1 0b01000#5 rs.bits rd.bits imm
  | .subi rd rs imm => packI1 0b01001#5 rs.bits rd.bits imm
  | .xori rd rs imm => packI1 0b01010#5 rs.bits rd.bits imm
  | .andni rd rs imm => packI1 0b01011#5 rs.bits rd.bits imm
  | .beqz rs imm => packI2 0b01100#5 rs.bits imm
  | .bnez rs imm => packI2 0b01101#5 rs.bits imm
  | .bltz rs imm => packI2 0b01110#5 rs.bits imm
  | .bgez rs imm => packI2 0b01111#5 rs.bits imm
  | .st rd rs imm => packI1 0b10000#5 rs.bits rd.bits imm
  | .ld rd rs imm => packI1 0b10001#5 rs.bits rd.bits imm
  | .slbi rs imm => packI2 0b10010#5 rs.bits imm
  | .stu rd rs imm => packI1 0b10011#5 rs.bits rd.bits imm
  | .roli rd rs imm => packI1 0b10100#5 rs.bits rd.bits imm
  | .slli rd rs imm => packI1 0b10101#5 rs.bits rd.bits imm
  | .srai rd rs imm => packI1 0b10110#5 rs.bits rd.bits imm
  | .srli rd rs imm => packI1 0b10111#5 rs.bits rd.bits imm
  | .lbi rs imm => packI2 0b11000#5 rs.bits imm
  | .btr rd rs => packR 0b11001#5 rs.bits 0b000#3 rd.bits 0b00#2
  | .rol rd rs rt => packR 0b11010#5 rs.bits rt.bits rd.bits 0b00#2
  | .sll rd rs rt => packR 0b11010#5 rs.bits rt.bits rd.bits 0b01#2
  | .sra rd rs rt => packR 0b11010#5 rs.bits rt.bits rd.bits 0b10#2
  | .srl rd rs rt => packR 0b11010#5 rs.bits rt.bits rd.bits 0b11#2
  | .add rd rs rt => packR 0b11011#5 rs.bits rt.bits rd.bits 0b00#2
  | .sub rd rs rt => packR 0b11011#5 rs.bits rt.bits rd.bits 0b01#2
  | .xor rd rs rt => packR 0b11011#5 rs.bits rt.bits rd.bits 0b10#2
  | .andn rd rs rt => packR 0b11011#5 rs.bits rt.bits rd.bits 0b11#2
  | .seq rd rs rt => packR 0b11100#5 rs.bits rt.bits rd.bits 0b00#2
  | .slt rd rs rt => packR 0b11101#5 rs.bits rt.bits rd.bits 0b00#2
  | .sle rd rs rt => packR 0b11110#5 rs.bits rt.bits rd.bits 0b00#2
  | .sco rd rs rt => packR 0b11111#5 rs.bits rt.bits rd.bits 0b00#2

/-- The instruction that `decode` reads from an instruction whose bits are `w`. An instruction is exactly one word of 16 bits
(R60), so another width, or a number that does not fit the word, is refused. -/
def decodeTableWord (nbits w : Nat) : Option Instr :=
  if nbits = 16 ∧ w < 2 ^ 16 then some (decode (BitVec.ofNat 16 w)) else none

end Sys2Proof
end

