-- ==== Sys2Proof/Config.lean ====
section
/-! DEFINITION. The values `State.reset` takes where the spec leaves a parameter of a run open or a register unspecified
(00_scope.md R6, 10_state.md R31). Nothing else rests on them: the meanings and `step` read State alone, and
`State.resetWith` takes every one of them as an argument. No free value is declared here, because the spec marks no result
of an instruction as undefined (93_implementation_defined.md section 1). -/

namespace Sys2Proof.Config

/-- IIC_IMPLEMENTED at `State.reset` (R6, D8: OPEN). DESIGN CHOICE, unsafe (log 5): the processor has the extension, so that
all 38 instructions have an effect of their own. -/
def iicImplemented : Bool := true

/-- What each of R0..R7 holds at `State.reset`. The spec gives no value (R31, D15, U1). DESIGN CHOICE, unsafe (log 1). -/
def registerAtReset : Word := 0#16

/-- What EPC holds at `State.reset`. The spec gives no value (R31, D15, U2). DESIGN CHOICE, unsafe (log 2). -/
def epcAtReset : Word := 0#16

end Sys2Proof.Config
end

