-- ==== Sys2Proof/Machine/State.lean ====
section
/-! DEFINITION. The state of a WISC-SP06 processor (10_state.md), as plain data, the reasons a step can stop, and the state
after reset (10_state.md R31, 70_reset_and_hazards.md R240). -/

namespace Sys2Proof.Machine

/-- The eight general registers, R0 to R7 (10_state.md R20). -/
structure RegFile where
  r0 : Word
  r1 : Word
  r2 : Word
  r3 : Word
  r4 : Word
  r5 : Word
  r6 : Word
  r7 : Word
deriving DecidableEq, Repr

/-- A word of a memory at its word address. The word is the only unit a memory of this machine has (20_memory.md R41, R46), so
a cell is not cut into bytes (DESIGN CHOICE, log 21). -/
abbrev WordCell := Nat × Word

/-- A memory of 65536 words (20_memory.md R41, R42): its defined words, at rising addresses (`Memory.wf`). An address that is
not listed holds no value (R31, D20). -/
structure Memory where
  cells : List WordCell
deriving DecidableEq, Repr

/-- The memory of which nothing is defined. -/
def Memory.empty : Memory := ⟨[]⟩

/-- The state: the architectural state of 10_state.md, and the two parameters of a run that no instruction writes and that
`step` needs (00_scope.md R6, 10_state.md R33): the instruction memory and whether the extension is present. -/
structure State where
  /-- R0 to R7 (R20, R21). -/
  regs : RegFile
  /-- The word address, in instruction memory, of the next instruction (R23). -/
  pc : Word
  /-- The Instruction Issue Counter (R26). Inert without the extension (60_exceptions.md R231). -/
  iic : Word
  /-- The resume address of the interrupt (R27). Inert without the extension (60_exceptions.md R231). -/
  epc : Word
  /-- The halt state (R28). -/
  halted : Bool
  /-- The data memory, DMem (20_memory.md R40, R41). -/
  dmem : Memory
  /-- The instruction memory, IMem (20_memory.md R40, R42): the parameter IMEM_INIT. -/
  imem : Memory
  /-- The parameter IIC_IMPLEMENTED (00_scope.md R2, R6). -/
  iicImplemented : Bool
deriving DecidableEq, Repr

/-- Why a step stops without a next state. The hardware itself raises no fault (60_exceptions.md R210). -/
inductive Fault where
  /-- Raised by the step of a halted processor: "no step is possible" (10_state.md R28, R30). Safe: the state before it is the
  final state of the run (log 6). -/
  | halted
  /-- Raised by the fetch from an address the program image does not define (20_memory.md R43, U11: `fault`). Safe: the
  processor would go on with a word the model does not know (log 4). -/
  | noInstruction (addr : Word)
  /-- Raised by LD from a data word that nothing has written and DMEM_INIT does not define (42_load_store.md R131, U3: `fault`).
  Safe: the processor would load a word the model does not know (log 3). -/
  | unwrittenData (addr : Word)
deriving DecidableEq, Repr

/-- Why an instruction has no meaning in the model. -/
inductive Refusal where
  /-- Raised by no arm of `exec`: all 38 instructions have their meaning. Safe. -/
  | notModelled (mnemonic : String)
deriving DecidableEq, Repr

/-- What a step, or an instruction, answers. -/
abbrev Result := Host.Outcome State Fault Refusal

/-- The state after reset (10_state.md R31, 70_reset_and_hazards.md R240, R241), for any value of what the spec leaves open:
IIC_IMPLEMENTED, IMEM_INIT, DMEM_INIT, REG_INIT (00_scope.md R6) and the unspecified EPC. -/
def State.resetWith (iicImplemented : Bool) (imemInit dmemInit : Memory) (regInit : RegFile) (epcInit : Word) : State where
  regs := regInit
  pc := 0x0000#16
  iic := 0x0000#16
  epc := epcInit
  halted := false
  dmem := dmemInit
  imem := imemInit
  iicImplemented := iicImplemented

/-- Every general register at the value of `Config.registerAtReset` (DESIGN CHOICE, log 1). -/
def RegFile.atReset : RegFile where
  r0 := Config.registerAtReset
  r1 := Config.registerAtReset
  r2 := Config.registerAtReset
  r3 := Config.registerAtReset
  r4 := Config.registerAtReset
  r5 := Config.registerAtReset
  r6 := Config.registerAtReset
  r7 := Config.registerAtReset

/-- The machine right after reset, with nothing loaded: no program and no data (D20, log 4), the extension present (log 5), the
general registers and EPC, which the spec leaves unspecified, at the values of Config (log 1 and 2). -/
def State.reset : State :=
  State.resetWith Config.iicImplemented Memory.empty Memory.empty RegFile.atReset Config.epcAtReset

end Sys2Proof.Machine
end

