-- ==== Sys2Proof/Machine/Ops.lean ====
section
/-! DEFINITION. The named operations over the state: the registers (10_state.md R20, R21), the two memories (20_memory.md R43 to
R45), the pc (10_state.md R23, R24), fetching an instruction, the issue counter (10_state.md R26, R30), and taking the one
interrupt and returning from it (60_exceptions.md R214, R217). -/

namespace Sys2Proof.Machine

/-! ### Registers -/

/-- `x[r]` (00_scope.md R10, 10_state.md R20): no register is hardwired (R21). -/
def State.readReg (s : State) (r : Reg) : Word :=
  match r with
  | .r0 => s.regs.r0
  | .r1 => s.regs.r1
  | .r2 => s.regs.r2
  | .r3 => s.regs.r3
  | .r4 => s.regs.r4
  | .r5 => s.regs.r5
  | .r6 => s.regs.r6
  | .r7 => s.regs.r7

/-- The register file with `r` set to `v`, all 16 bits (10_state.md R22). -/
def RegFile.set (f : RegFile) (r : Reg) (v : Word) : RegFile :=
  match r with
  | .r0 => { f with r0 := v }
  | .r1 => { f with r1 := v }
  | .r2 => { f with r2 := v }
  | .r3 => { f with r3 := v }
  | .r4 => { f with r4 := v }
  | .r5 => { f with r5 := v }
  | .r6 => { f with r6 := v }
  | .r7 => { f with r7 := v }

/-- `x[r] <- v` (00_scope.md R10). -/
def State.writeReg (s : State) (r : Reg) (v : Word) : State := { s with regs := s.regs.set r v }

/-- The link register of JAL and JALR (10_state.md R21). -/
def linkReg : Reg := .r7

/-! ### Memories -/

/-- The word listed first for the address `a`, if one is. -/
def lookupCell (cells : List WordCell) (a : Nat) : Option Word :=
  match cells with
  | [] => none
  | (k, v) :: rest => if a = k then some v else lookupCell rest a

/-- The list with `v` at `a`, placed so that rising addresses stay rising. -/
def insertCell (cells : List WordCell) (a : Nat) (v : Word) : List WordCell :=
  match cells with
  | [] => [(a, v)]
  | (k, w) :: rest =>
    if a < k then (a, v) :: (k, w) :: rest
    else if a = k then (a, v) :: rest
    else (k, w) :: insertCell rest a v

/-- The addresses rise strictly, start at `lo` or later, and are 16-bit word addresses (20_memory.md R41). -/
def risingFrom (lo : Nat) (cells : List WordCell) : Bool :=
  match cells with
  | [] => true
  | (k, _) :: rest => decide (lo ≤ k) && decide (k < 2 ^ 16) && risingFrom (k + 1) rest

/-- The canonical form of a memory: strictly rising 16-bit word addresses. An unlisted address holds no value, so no listed
word can equal what an unlisted address reads as. -/
def Memory.wf (m : Memory) : Bool := risingFrom 0 m.cells

/-- The word at address `a`; `none` where nothing has defined it (20_memory.md R43, R44; U3, U11). -/
def Memory.read (m : Memory) (a : Word) : Option Word := lookupCell m.cells a.toNat

/-- The memory with the word `v` at address `a`, and no other word changed (20_memory.md R45). -/
def Memory.write (m : Memory) (a v : Word) : Memory := ⟨insertCell m.cells a.toNat v⟩

/-- `MemWrite(a, 1, v)`: DMem alone is written (20_memory.md R45, R54). -/
def State.storeWord (s : State) (a v : Word) : State := { s with dmem := s.dmem.write a v }

/-- The state with the word `w` in instruction memory at `a`, as a load from outside places it. No instruction does this
(20_memory.md R42). -/
def State.placeInstruction (s : State) (a w : Word) : State := { s with imem := s.imem.write a w }

/-! ### The pc -/

/-- `pc <- a` (00_scope.md R10). -/
def State.setPc (s : State) (a : Word) : State := { s with pc := a }

/-- The address of the next sequential instruction, `pc + 1` modulo 2^16 (10_state.md R23, R24; the spec's decision D2). -/
def State.nextSequential (s : State) : Word := s.pc + 1#16

/-- The implicit `pc <- pc + 1` (00_scope.md R10). -/
def State.advance (s : State) : State := s.setPc s.nextSequential

/-! ### The ways an instruction ends -/

/-- The instruction changed nothing but the pc, to the next sequential instruction. -/
def finishNoWrite (s : State) : Result := .next s.advance

/-- The instruction wrote `v` to the register `rd` and goes on to the next sequential instruction (41_alu_immediate.md R118,
45_alu_register.md R173). -/
def finishReg (s : State) (rd : Reg) (v : Word) : Result := .next (s.writeReg rd v).advance

/-- The instruction transfers control to `target`; no delay slot (70_reset_and_hazards.md R250), no alignment
(20_memory.md R47). -/
def finishJump (s : State) (target : Word) : Result := .next (s.setPc target)

/-- The instruction transfers control to `target` and leaves `pc + 1` in R7 (40_jumps.md R102, R103). -/
def finishJumpAndLink (s : State) (target : Word) : Result :=
  .next ((s.writeReg linkReg s.nextSequential).setPc target)

/-- The instruction goes to `target` if `taken`, and to the next sequential instruction if not (44_branches.md R154). -/
def finishBranch (s : State) (taken : Bool) (target : Word) : Result :=
  .next (s.setPc (if taken then target else s.nextSequential))

/-- `x[rd] <- MemRead(a, 1)`, or the fault of U3 where nothing has written the word (42_load_store.md R131). -/
def finishLoad (s : State) (rd : Reg) (a : Word) : Result :=
  match s.dmem.read a with
  | some v => finishReg s rd v
  | none => .fault (.unwrittenData a)

/-! ### Issue, the interrupt and the return from it -/

/-- `iic <- v` (00_scope.md R10). -/
def State.setIic (s : State) (v : Word) : State := { s with iic := v }

/-- `halted <- true` (00_scope.md R10, 10_state.md R28). -/
def State.halt (s : State) : State := { s with halted := true }

/-- The address of the handler's first instruction: "PC will be loaded with the constant \"1\"" (60_exceptions.md R214). -/
def interruptVector : Word := 0x0001#16

/-- The issue of one instruction: with the extension, a non-zero IIC is decremented (10_state.md R26, R30). -/
def State.countIssue (s : State) : State :=
  if s.iicImplemented && s.iic != 0#16 then s.setIic (s.iic - 1#16) else s

/-- This issue decrements the IIC "from one to zero" (10_state.md R30, `fire`). -/
def State.fires (s : State) : Bool := s.iicImplemented && s.iic == 1#16

/-- Taking the IIC interrupt: EPC gets the address of the instruction that would execute next, the pc the constant 1, and
nothing else changes (60_exceptions.md R214, R215; the spec's decision D10, log 14). -/
def State.takeInterrupt (s : State) : State := { s with epc := s.pc, pc := interruptVector }

/-- The return from the interrupt restores the pc from EPC and nothing else (47_interrupt_instructions.md R201,
60_exceptions.md R217). -/
def State.returnFromInterrupt (s : State) : State := s.setPc s.epc

/-- The end of an instruction cycle: `if fire and not halted then` take the interrupt (10_state.md R30, 60_exceptions.md R216,
R219). -/
def settleInterrupt (fire : Bool) (r : Result) : Result :=
  match r with
  | .next t => .next (if fire && !t.halted then t.takeInterrupt else t)
  | .fault f => .fault f
  | .refused q => .refused q

/-- The start of an instruction cycle: no step is possible in the halt state (10_state.md R28); else `instr <- Fetch(pc)`
(20_memory.md R43), decoded (30_encoding.md R71). -/
def fetchInstr (s : State) : Except Fault Instr :=
  if s.halted then .error .halted
  else
    match s.imem.read s.pc with
    | some w => .ok (decode w)
    | none => .error (.noInstruction s.pc)

/-- The state in which the next step fetches and runs the word `w`: `w` at the pc in instruction memory, and the processor not
halted, since a halted one fetches nothing (log 24). -/
def State.loadNextInstruction (s : State) (w : Word) : State :=
  { s.placeInstruction s.pc w with halted := false }

end Sys2Proof.Machine
end

