-- ==== Sys2Proof/Machine/Operands.lean ====
section
/-! DEFINITION. The operand forms (30_encoding.md R67 to R69), the effective address (20_memory.md R56), the targets of the
control transfers (10_state.md R24) and the ALU's functions of words (00_scope.md R8). -/

namespace Sys2Proof.Machine

/-! ### Immediates -/

/-- `sext_5(imm5)` (00_scope.md R9, 30_encoding.md R67): -16 to 15. -/
def sext5 (imm : BitVec 5) : Word := imm.signExtend 16

/-- `zext_5(imm5)` (00_scope.md R9, 30_encoding.md R67): 0 to 31. -/
def zext5 (imm : BitVec 5) : Word := imm.setWidth 16

/-- `sext_8(imm8)` (00_scope.md R9, 30_encoding.md R68): -128 to 127. -/
def sext8 (imm : BitVec 8) : Word := imm.signExtend 16

/-- `zext_8(imm8)` (00_scope.md R9, 30_encoding.md R68): 0 to 255. -/
def zext8 (imm : BitVec 8) : Word := imm.setWidth 16

/-- `sext_11(disp11)` (00_scope.md R9, 30_encoding.md R69): -1024 to 1023. -/
def sext11 (disp : BitVec 11) : Word := disp.signExtend 16

/-- The shift amount of a shift immediate, `imm5[3:0]`: bit 4 is ignored (30_encoding.md R67, 41_alu_immediate.md R119). -/
def shiftAmountImm (imm : BitVec 5) : Nat := (imm.extractLsb' 0 4).toNat

/-- The shift amount of a register shift, `x[rt][3:0]` (45_alu_register.md R174). -/
def shiftAmountReg (v : Word) : Nat := (v.extractLsb' 0 4).toNat

/-! ### Addresses -/

/-- The effective address `x[rs] + sext_5(imm5)` modulo 2^16 (20_memory.md R56). -/
def State.effectiveAddress (s : State) (rs : Reg) (imm : BitVec 5) : Word := s.readReg rs + sext5 imm

/-- The target of J and JAL, `pc + 1 + sext_11(disp11)` (40_jumps.md R100, R102). -/
def State.jumpTarget (s : State) (disp : BitVec 11) : Word := s.nextSequential + sext11 disp

/-- The target of JR and JALR, `x[rs] + sext_8(imm8)` (40_jumps.md R101, R103). -/
def State.registerTarget (s : State) (rs : Reg) (imm : BitVec 8) : Word := s.readReg rs + sext8 imm

/-- The target of a taken branch, `pc + 1 + sext_8(imm8)` (44_branches.md R154). -/
def State.branchTarget (s : State) (imm : BitVec 8) : Word := s.nextSequential + sext8 imm

/-! ### Shifts, rotates and the bit reversal -/

/-- `rotl(a, n)` for n from 0 to 15, as 41_alu_immediate.md R114 writes it; for n = 0 the second part is 0, and `a` stays. -/
def rotateLeft (a : Word) (n : Nat) : Word := a <<< n ||| a >>> (16 - n)

/-- `a << n`: zeros enter at bit 0 (00_scope.md R8). -/
def shiftLeft (a : Word) (n : Nat) : Word := a <<< n

/-- `a >>a n`: copies of bit 15 enter at bit 15 (00_scope.md R8). -/
def shiftRightArith (a : Word) (n : Nat) : Word := a.sshiftRight n

/-- `a >>l n`: zeros enter at bit 15 (00_scope.md R8). -/
def shiftRightLogical (a : Word) (n : Nat) : Word := a >>> n

/-- The left-right reversal of BTR (45_alu_register.md R160): bit 0 goes to bit 15, bit 1 to bit 14. -/
def bitReverse (a : Word) : Word := a.reverse

end Sys2Proof.Machine
end

