-- ==== Sys2Proof/Machine/Flags.lean ====
section
/-! DEFINITION. WISC-SP06 has no flags (10_state.md R25). What other machines hold in flags is a value here: the conditions of
the branches (44_branches.md R150 to R153), and the comparisons and the carry-out that the set instructions deliver in a
register as 0x0001 or 0x0000 (45_alu_register.md R169 to R172, R175). -/

namespace Sys2Proof.Machine

/-- The result of a set instruction (45_alu_register.md R175). -/
def truthWord (b : Bool) : Word := if b then 0x0001#16 else 0x0000#16

/-- `a = b`, all 16 bits (45_alu_register.md R169). -/
def isEqual (a b : Word) : Bool := a == b

/-- `signed(a) < signed(b)`, of the mathematical values (45_alu_register.md R170). -/
def isLessSigned (a b : Word) : Bool := decide (a.toInt < b.toInt)

/-- `signed(a) <= signed(b)` (45_alu_register.md R171). -/
def isLessEqualSigned (a b : Word) : Bool := decide (a.toInt ≤ b.toInt)

/-- The carry-out of bit 15: the exact sum of the unsigned values is at least 65536 (45_alu_register.md R172). -/
def carryOut (a b : Word) : Bool := decide (65536 ≤ a.toNat + b.toNat)

/-- The condition of BEQZ (44_branches.md R150). -/
def isZero (a : Word) : Bool := a == 0x0000#16

/-- The condition of BNEZ (44_branches.md R151). -/
def isNonZero (a : Word) : Bool := a != 0x0000#16

/-- The condition of BLTZ, `signed(a) < 0` (44_branches.md R152). -/
def isNegative (a : Word) : Bool := decide (a.toInt < 0)

/-- The condition of BGEZ, `signed(a) >= 0` (44_branches.md R153). -/
def isNonNegative (a : Word) : Bool := decide (0 ≤ a.toInt)

end Sys2Proof.Machine
end

