-- ==== Sys2Proof/Machine/AluImm.lean ====
section
/-! DEFINITION. The meanings of the ALU and shift instructions with an immediate (41_alu_immediate.md R110 to R119). -/

namespace Sys2Proof.Machine

/-- ADDI (41_alu_immediate.md R110): `x[rd] <- x[rs] + sext_5(imm5)`. -/
def execAddi (rd rs : Reg) (imm : BitVec 5) (s : State) : Result :=
  finishReg s rd (s.readReg rs + sext5 imm)

/-- SUBI (41_alu_immediate.md R111): `x[rd] <- sext_5(imm5) - x[rs]`, the immediate minus the register. -/
def execSubi (rd rs : Reg) (imm : BitVec 5) (s : State) : Result :=
  finishReg s rd (sext5 imm - s.readReg rs)

/-- XORI (41_alu_immediate.md R112): `x[rd] <- x[rs] XOR zext_5(imm5)`. -/
def execXori (rd rs : Reg) (imm : BitVec 5) (s : State) : Result :=
  finishReg s rd (s.readReg rs ^^^ zext5 imm)

/-- ANDNI (41_alu_immediate.md R113): `x[rd] <- x[rs] AND ~zext_5(imm5)`, extended first and complemented second. -/
def execAndni (rd rs : Reg) (imm : BitVec 5) (s : State) : Result :=
  finishReg s rd (s.readReg rs &&& ~~~zext5 imm)

/-- ROLI (41_alu_immediate.md R114): `x[rd] <- rotl(x[rs], imm5[3:0])`. -/
def execRoli (rd rs : Reg) (imm : BitVec 5) (s : State) : Result :=
  finishReg s rd (rotateLeft (s.readReg rs) (shiftAmountImm imm))

/-- SLLI (41_alu_immediate.md R115): `x[rd] <- x[rs] << imm5[3:0]`. -/
def execSlli (rd rs : Reg) (imm : BitVec 5) (s : State) : Result :=
  finishReg s rd (shiftLeft (s.readReg rs) (shiftAmountImm imm))

/-- SRAI (41_alu_immediate.md R116): `x[rd] <- x[rs] >>a imm5[3:0]`. -/
def execSrai (rd rs : Reg) (imm : BitVec 5) (s : State) : Result :=
  finishReg s rd (shiftRightArith (s.readReg rs) (shiftAmountImm imm))

/-- SRLI (41_alu_immediate.md R117): `x[rd] <- x[rs] >>l imm5[3:0]`. -/
def execSrli (rd rs : Reg) (imm : BitVec 5) (s : State) : Result :=
  finishReg s rd (shiftRightLogical (s.readReg rs) (shiftAmountImm imm))

end Sys2Proof.Machine
end

