-- ==== Sys2Proof/Machine/AluReg.lean ====
section
/-! DEFINITION. The meanings of the register-register ALU, shift and set instructions (45_alu_register.md R160 to R175). -/

namespace Sys2Proof.Machine

/-- BTR (45_alu_register.md R160): `x[rd][i] <- x[rs][15 - i]`. -/
def execBtr (rd rs : Reg) (s : State) : Result :=
  finishReg s rd (bitReverse (s.readReg rs))

/-- ADD (45_alu_register.md R161): `x[rd] <- x[rs] + x[rt]`. -/
def execAdd (rd rs rt : Reg) (s : State) : Result :=
  finishReg s rd (s.readReg rs + s.readReg rt)

/-- SUB (45_alu_register.md R162): `x[rd] <- x[rt] - x[rs]`, Rt minus Rs. -/
def execSub (rd rs rt : Reg) (s : State) : Result :=
  finishReg s rd (s.readReg rt - s.readReg rs)

/-- XOR (45_alu_register.md R163): `x[rd] <- x[rs] XOR x[rt]`. -/
def execXor (rd rs rt : Reg) (s : State) : Result :=
  finishReg s rd (s.readReg rs ^^^ s.readReg rt)

/-- ANDN (45_alu_register.md R164): `x[rd] <- x[rs] AND ~x[rt]`. -/
def execAndn (rd rs rt : Reg) (s : State) : Result :=
  finishReg s rd (s.readReg rs &&& ~~~s.readReg rt)

/-- ROL (45_alu_register.md R165): `x[rd] <- rotl(x[rs], x[rt][3:0])`. -/
def execRol (rd rs rt : Reg) (s : State) : Result :=
  finishReg s rd (rotateLeft (s.readReg rs) (shiftAmountReg (s.readReg rt)))

/-- SLL (45_alu_register.md R166): `x[rd] <- x[rs] << x[rt][3:0]`. -/
def execSll (rd rs rt : Reg) (s : State) : Result :=
  finishReg s rd (shiftLeft (s.readReg rs) (shiftAmountReg (s.readReg rt)))

/-- SRA (45_alu_register.md R167): `x[rd] <- x[rs] >>a x[rt][3:0]`. -/
def execSra (rd rs rt : Reg) (s : State) : Result :=
  finishReg s rd (shiftRightArith (s.readReg rs) (shiftAmountReg (s.readReg rt)))

/-- SRL (45_alu_register.md R168): `x[rd] <- x[rs] >>l x[rt][3:0]`. -/
def execSrl (rd rs rt : Reg) (s : State) : Result :=
  finishReg s rd (shiftRightLogical (s.readReg rs) (shiftAmountReg (s.readReg rt)))

/-- SEQ (45_alu_register.md R169): 1 if `x[rs] = x[rt]`, else 0. -/
def execSeq (rd rs rt : Reg) (s : State) : Result :=
  finishReg s rd (truthWord (isEqual (s.readReg rs) (s.readReg rt)))

/-- SLT (45_alu_register.md R170): 1 if `signed(x[rs]) < signed(x[rt])`, else 0. -/
def execSlt (rd rs rt : Reg) (s : State) : Result :=
  finishReg s rd (truthWord (isLessSigned (s.readReg rs) (s.readReg rt)))

/-- SLE (45_alu_register.md R171): 1 if `signed(x[rs]) <= signed(x[rt])`, else 0. -/
def execSle (rd rs rt : Reg) (s : State) : Result :=
  finishReg s rd (truthWord (isLessEqualSigned (s.readReg rs) (s.readReg rt)))

/-- SCO (45_alu_register.md R172): 1 if the sum carries out of bit 15, else 0. -/
def execSco (rd rs rt : Reg) (s : State) : Result :=
  finishReg s rd (truthWord (carryOut (s.readReg rs) (s.readReg rt)))

end Sys2Proof.Machine
end

