-- ==== Sys2Proof/Machine/Branch.lean ====
section
/-! DEFINITION. The meanings of the conditional branches (44_branches.md R150 to R154). -/

namespace Sys2Proof.Machine

/-- BEQZ (44_branches.md R150): taken if `x[rs] = 0x0000`. -/
def execBeqz (rs : Reg) (imm : BitVec 8) (s : State) : Result :=
  finishBranch s (isZero (s.readReg rs)) (s.branchTarget imm)

/-- BNEZ (44_branches.md R151): taken if `x[rs] != 0x0000`. -/
def execBnez (rs : Reg) (imm : BitVec 8) (s : State) : Result :=
  finishBranch s (isNonZero (s.readReg rs)) (s.branchTarget imm)

/-- BLTZ (44_branches.md R152): taken if `signed(x[rs]) < 0`. -/
def execBltz (rs : Reg) (imm : BitVec 8) (s : State) : Result :=
  finishBranch s (isNegative (s.readReg rs)) (s.branchTarget imm)

/-- BGEZ (44_branches.md R153): taken if `signed(x[rs]) >= 0`. -/
def execBgez (rs : Reg) (imm : BitVec 8) (s : State) : Result :=
  finishBranch s (isNonNegative (s.readReg rs)) (s.branchTarget imm)

end Sys2Proof.Machine
end

