-- ==== Sys2Proof/Machine/Interrupt.lean ====
section
/-! DEFINITION. The meanings of the instruction-counter and interrupt instructions SIIC and RTI (47_interrupt_instructions.md). Without the
extension both are NOP (60_exceptions.md R231). -/

namespace Sys2Proof.Machine

/-- SIIC (47_interrupt_instructions.md R200): with the extension `iic <- x[rs]`, over the decrement of its own issue (D12, log 15);
else NOP. -/
def execSiic (rs : Reg) (s : State) : Result :=
  finishNoWrite (if s.iicImplemented then s.setIic (s.readReg rs) else s)

/-- RTI (47_interrupt_instructions.md R201): with the extension `pc <- epc`, and nothing else is restored; else NOP. -/
def execRti (s : State) : Result :=
  if s.iicImplemented then .next s.returnFromInterrupt else finishNoWrite s

end Sys2Proof.Machine
end

