-- ==== Sys2Proof/Machine/Jump.lean ====
section
/-! DEFINITION. The meanings of the jump instructions J, JR, JAL, JALR (40_jumps.md). -/

namespace Sys2Proof.Machine

/-- J (40_jumps.md R100): `pc <- pc + 1 + sext_11(disp11)`. -/
def execJ (disp : BitVec 11) (s : State) : Result :=
  finishJump s (s.jumpTarget disp)

/-- JR (40_jumps.md R101): `pc <- x[rs] + sext_8(imm8)`. -/
def execJr (rs : Reg) (imm : BitVec 8) (s : State) : Result :=
  finishJump s (s.registerTarget rs imm)

/-- JAL (40_jumps.md R102): `x[7] <- pc + 1`, `pc <- pc + 1 + sext_11(disp11)`. -/
def execJal (disp : BitVec 11) (s : State) : Result :=
  finishJumpAndLink s (s.jumpTarget disp)

/-- JALR (40_jumps.md R103): the target is read before R7 is written, for rs = 7 too (D6, log 11). -/
def execJalr (rs : Reg) (imm : BitVec 8) (s : State) : Result :=
  finishJumpAndLink s (s.registerTarget rs imm)

end Sys2Proof.Machine
end

