-- ==== Sys2Proof/Machine/LoadImm.lean ====
section
/-! DEFINITION. The meanings of the load-immediate instructions LBI and SLBI (43_load_immediate.md R140 to R142). -/

namespace Sys2Proof.Machine

/-- LBI (43_load_immediate.md R140): `x[rs] <- sext_8(imm8)`. -/
def execLbi (rs : Reg) (imm : BitVec 8) (s : State) : Result :=
  finishReg s rs (sext8 imm)

/-- SLBI (43_load_immediate.md R141): `x[rs] <- (x[rs] << 8) | zext_8(imm8)`. -/
def execSlbi (rs : Reg) (imm : BitVec 8) (s : State) : Result :=
  finishReg s rs (shiftLeft (s.readReg rs) 8 ||| zext8 imm)

end Sys2Proof.Machine
end

