-- ==== Sys2Proof/Machine/LoadStore.lean ====
section
/-! DEFINITION. The meanings of the load and store instructions ST, LD, STU (42_load_store.md R130 to R133). -/

namespace Sys2Proof.Machine

/-- ST (42_load_store.md R130): `MemWrite(ea, 1, x[rd])` with `ea = x[rs] + sext_5(imm5)`. -/
def execSt (rd rs : Reg) (imm : BitVec 5) (s : State) : Result :=
  finishNoWrite (s.storeWord (s.effectiveAddress rs imm) (s.readReg rd))

/-- LD (42_load_store.md R131): `x[rd] <- MemRead(ea, 1)`; a word that nothing has written has no value (U3, log 3). -/
def execLd (rd rs : Reg) (imm : BitVec 5) (s : State) : Result :=
  finishLoad s rd (s.effectiveAddress rs imm)

/-- STU (42_load_store.md R132): `MemWrite(ea, 1, x[rd])` and `x[rs] <- ea`; the word stored is read before the base is
written, for rd = rs too (D6, log 11). -/
def execStu (rd rs : Reg) (imm : BitVec 5) (s : State) : Result :=
  finishReg (s.storeWord (s.effectiveAddress rs imm) (s.readReg rd)) rs (s.effectiveAddress rs imm)

end Sys2Proof.Machine
end

