-- ==== Sys2Proof/Machine/Special.lean ====
section
/-! DEFINITION. The meanings of the special instructions HALT and NOP (46_special.md). -/

namespace Sys2Proof.Machine

/-- HALT (46_special.md R190): `halted <- true`, and the pc is left at the instruction directly after the halt. -/
def execHalt (s : State) : Result :=
  finishNoWrite s.halt

/-- NOP (46_special.md R191): nothing but `pc <- pc + 1`. -/
def execNop (s : State) : Result :=
  finishNoWrite s

end Sys2Proof.Machine
end

