-- ==== Sys2Proof/Machine/Dispatch.lean ====
section
/-! DEFINITION. One arm per instruction, in the order of spec/opcode_table.json, each a call of its meaning. -/

namespace Sys2Proof.Machine

/-- What the instruction `i` does, by its own rule, in the state `s` whose IIC its issue has already counted (10_state.md R30). -/
def exec (i : Instr) (s : State) : Host.Outcome State Fault Refusal :=
  match i with
  | .halt => Sys2Proof.Machine.execHalt s
  | .nop => Sys2Proof.Machine.execNop s
  | .siic rs => Sys2Proof.Machine.execSiic rs s
  | .rti => Sys2Proof.Machine.execRti s
  | .j disp => Sys2Proof.Machine.execJ disp s
  | .jr rs imm => Sys2Proof.Machine.execJr rs imm s
  | .jal disp => Sys2Proof.Machine.execJal disp s
  | .jalr rs imm => Sys2Proof.Machine.execJalr rs imm s
  | .addi rd rs imm => Sys2Proof.Machine.execAddi rd rs imm s
  | .subi rd rs imm => Sys2Proof.Machine.execSubi rd rs imm s
  | .xori rd rs imm => Sys2Proof.Machine.execXori rd rs imm s
  | .andni rd rs imm => Sys2Proof.Machine.execAndni rd rs imm s
  | .beqz rs imm => Sys2Proof.Machine.execBeqz rs imm s
  | .bnez rs imm => Sys2Proof.Machine.execBnez rs imm s
  | .bltz rs imm => Sys2Proof.Machine.execBltz rs imm s
  | .bgez rs imm => Sys2Proof.Machine.execBgez rs imm s
  | .st rd rs imm => Sys2Proof.Machine.execSt rd rs imm s
  | .ld rd rs imm => Sys2Proof.Machine.execLd rd rs imm s
  | .slbi rs imm => Sys2Proof.Machine.execSlbi rs imm s
  | .stu rd rs imm => Sys2Proof.Machine.execStu rd rs imm s
  | .roli rd rs imm => Sys2Proof.Machine.execRoli rd rs imm s
  | .slli rd rs imm => Sys2Proof.Machine.execSlli rd rs imm s
  | .srai rd rs imm => Sys2Proof.Machine.execSrai rd rs imm s
  | .srli rd rs imm => Sys2Proof.Machine.execSrli rd rs imm s
  | .lbi rs imm => Sys2Proof.Machine.execLbi rs imm s
  | .btr rd rs => Sys2Proof.Machine.execBtr rd rs s
  | .rol rd rs rt => Sys2Proof.Machine.execRol rd rs rt s
  | .sll rd rs rt => Sys2Proof.Machine.execSll rd rs rt s
  | .sra rd rs rt => Sys2Proof.Machine.execSra rd rs rt s
  | .srl rd rs rt => Sys2Proof.Machine.execSrl rd rs rt s
  | .add rd rs rt => Sys2Proof.Machine.execAdd rd rs rt s
  | .sub rd rs rt => Sys2Proof.Machine.execSub rd rs rt s
  | .xor rd rs rt => Sys2Proof.Machine.execXor rd rs rt s
  | .andn rd rs rt => Sys2Proof.Machine.execAndn rd rs rt s
  | .seq rd rs rt => Sys2Proof.Machine.execSeq rd rs rt s
  | .slt rd rs rt => Sys2Proof.Machine.execSlt rd rs rt s
  | .sle rd rs rt => Sys2Proof.Machine.execSle rd rs rt s
  | .sco rd rs rt => Sys2Proof.Machine.execSco rd rs rt s

end Sys2Proof.Machine
end

