-- ==== Sys2Proof/Machine/Step.lean ====
section
/-! DEFINITION. The instruction cycle (10_state.md R30), the only step relation of the machine: fetch, count the issue, execute,
then the interrupt if the issue took the counter from one to zero. -/

namespace Sys2Proof.Machine

/-- One step of the processor (10_state.md R30). -/
def step (s : State) : Host.Outcome State Fault Refusal :=
  match fetchInstr s with
  | .error f => .fault f
  | .ok i => settleInterrupt s.fires (exec i s.countIssue)

/-- `s` with the instruction whose bits are `w` stored where `step` fetches next, in instruction memory at the pc, and the halt
state left (log 24). An instruction is one word of 16 bits (30_encoding.md R60), so `nbits` says nothing more. -/
def State.withFetchWord (s : State) (nbits w : Nat) : State :=
  s.loadNextInstruction (BitVec.ofNat 16 (w % 2 ^ nbits))

end Sys2Proof.Machine
end

