-- ==== Sys2Proof/Safety.lean ====
section
/-! DEFINITION. The terms that statements about the machine use: the invariant of a state, the instruction a state is about to
run, runs, and the normal end of a run (10_state.md R28, 70_reset_and_hazards.md R244). -/

namespace Sys2Proof.Machine

/-- Both memories have their canonical form. The invariant of the model: a real state lists each defined word once, in order. -/
abbrev State.Canonical (s : State) : Prop := s.dmem.wf = true ∧ s.imem.wf = true

/-- The instruction the next step runs, if the processor is not halted and the program image defines one at the pc. -/
def State.nextInstr (s : State) : Option Instr :=
  match fetchInstr s with
  | .ok i => some i
  | .error _ => none

/-- `n` steps lead from `s` to `t`, none of them stopping. -/
abbrev RunsTo (n : Nat) (s t : State) : Prop := Host.Core.run Sys2Proof.core n s = .next t

/-- The run that starts at `s` ends normally after `n` steps: HALT has been executed (R28, R190, R244). -/
abbrev EndsAfter (n : Nat) (s : State) : Prop := ∃ t, RunsTo n s t ∧ t.halted = true

/-- A step that stops for a reason other than the halt state: the model lacks a word the spec leaves undefined (U3, U11). -/
def stopsForMissingWord (r : Result) : Bool :=
  match r with
  | .next _ => false
  | .fault .halted => false
  | .fault (.noInstruction _) => true
  | .fault (.unwrittenData _) => true
  | .refused _ => true

end Sys2Proof.Machine
end

