-- ==== Sys2Proof/Certificates/Slice0/Obligations.lean ====
section
/-! DEFINITION. The statements for the provers. Where the spec gives a result as an expression of bits or of numbers, the
statement says it of the bits or of the numbers, apart from the operation the model computes it with. A statement whose
docstring names a decision (D<n>) of the spec rests on that choice of the spec's, not on the source. -/

namespace Sys2Proof.Statements

open Sys2Proof.Machine

/-! ### What an instruction leaves unchanged -/

/-- IIC, EPC, the halt state and the extension parameter are as before. -/
def SpecialsKept (s t : State) : Prop :=
  t.iic = s.iic ∧ t.epc = s.epc ∧ t.halted = s.halted ∧ t.iicImplemented = s.iicImplemented

/-- Every word of both memories reads as before. -/
def MemoriesKept (s t : State) : Prop := ∀ a : Word, t.dmem.read a = s.dmem.read a ∧ t.imem.read a = s.imem.read a

/-- Every general register but `rd` reads as before. -/
def OtherRegsKept (s t : State) (rd : Reg) : Prop := ∀ r, r ≠ rd → t.readReg r = s.readReg r

/-- Every general register reads as before. -/
def RegsKept (s t : State) : Prop := ∀ r, t.readReg r = s.readReg r

/-- The instruction's whole effect is `v` in `rd`, and the pc at the next sequential instruction. -/
def WritesOnly (s t : State) (rd : Reg) (v : Word) : Prop :=
  t.readReg rd = v ∧ OtherRegsKept s t rd ∧ t.pc = s.pc + 1#16 ∧ SpecialsKept s t ∧ MemoriesKept s t

/-- The instruction's whole effect is the pc at `target`. -/
def GoesTo (s t : State) (target : Word) : Prop :=
  t.pc = target ∧ RegsKept s t ∧ SpecialsKept s t ∧ MemoriesKept s t

/-- The instruction's whole effect is `pc + 1` in R7, and the pc at `target`. -/
def LinksAndGoesTo (s t : State) (target : Word) : Prop :=
  t.readReg .r7 = s.pc + 1#16 ∧ OtherRegsKept s t .r7 ∧ t.pc = target ∧ SpecialsKept s t ∧ MemoriesKept s t

/-- The word at `a` of data memory is `v`; every other word of both memories reads as before. -/
def StoresOnly (s t : State) (a v : Word) : Prop :=
  t.dmem.read a = some v ∧ (∀ b, b ≠ a → t.dmem.read b = s.dmem.read b) ∧ ∀ b, t.imem.read b = s.imem.read b

/-- The instruction answers a next state, and that state is as `P` says. -/
def Completes (i : Instr) (s : State) (P : State → Prop) : Prop := ∃ t, exec i s = .next t ∧ P t

/-! ### Values, as the spec writes them -/

/-- The word of an exact integer result, modulo 2^16 (00_scope.md R8). -/
def wordOf (n : Int) : Word := BitVec.ofInt 16 n

/-- `v = rotl(a, n)`: `rotl(a, n)[(i + n) mod 16] = a[i]` (00_scope.md R8). -/
def IsRotl (v a : Word) (n : Nat) : Prop := ∀ i, i < 16 → v.getLsbD ((i + n) % 16) = a.getLsbD i

/-- `v = a << n`: zeros enter at bit 0 and bits leaving bit 15 are lost (00_scope.md R8). -/
def IsShl (v a : Word) (n : Nat) : Prop :=
  ∀ i, i < 16 → v.getLsbD i = if i < n then false else a.getLsbD (i - n)

/-- `v = a >>l n`: zeros enter at bit 15 (00_scope.md R8). -/
def IsShrL (v a : Word) (n : Nat) : Prop :=
  ∀ i, i < 16 → v.getLsbD i = if i + n < 16 then a.getLsbD (i + n) else false

/-- `v = a >>a n`: copies of `a[15]` enter at bit 15 (00_scope.md R8). -/
def IsShrA (v a : Word) (n : Nat) : Prop :=
  ∀ i, i < 16 → v.getLsbD i = if i + n < 16 then a.getLsbD (i + n) else a.getLsbD 15

/-! ### Tables of the spec -/

/-- The ignored bits of a word (30_encoding.md R73), by its opcode as a number. -/
def ignoredBits (w : Word) : Word :=
  let op := w.toNat / 2048
  if op = 0 ∨ op = 1 ∨ op = 3 then 0x07FF#16
  else if op = 2 then 0x00FF#16
  else if op = 25 then 0x00E3#16
  else if 28 ≤ op then 0x0003#16
  else 0x0000#16

/-- The general registers an instruction reads and those it writes: the table of 10_state.md R22, with and without the
extension. -/
def registerUse (iicImplemented : Bool) (i : Instr) : List Reg × List Reg :=
  match i with
  | .addi rd rs _ => ([rs], [rd])
  | .subi rd rs _ => ([rs], [rd])
  | .xori rd rs _ => ([rs], [rd])
  | .andni rd rs _ => ([rs], [rd])
  | .roli rd rs _ => ([rs], [rd])
  | .slli rd rs _ => ([rs], [rd])
  | .srai rd rs _ => ([rs], [rd])
  | .srli rd rs _ => ([rs], [rd])
  | .ld rd rs _ => ([rs], [rd])
  | .st rd rs _ => ([rs, rd], [])
  | .stu rd rs _ => ([rs, rd], [rs])
  | .lbi rs _ => ([], [rs])
  | .slbi rs _ => ([rs], [rs])
  | .beqz rs _ => ([rs], [])
  | .bnez rs _ => ([rs], [])
  | .bltz rs _ => ([rs], [])
  | .bgez rs _ => ([rs], [])
  | .jr rs _ => ([rs], [])
  | .siic rs => (if iicImplemented then [rs] else [], [])
  | .jalr rs _ => ([rs], [.r7])
  | .jal _ => ([], [.r7])
  | .j _ => ([], [])
  | .halt => ([], [])
  | .nop => ([], [])
  | .rti => ([], [])
  | .btr rd rs => ([rs], [rd])
  | .add rd rs rt => ([rs, rt], [rd])
  | .sub rd rs rt => ([rs, rt], [rd])
  | .xor rd rs rt => ([rs, rt], [rd])
  | .andn rd rs rt => ([rs, rt], [rd])
  | .rol rd rs rt => ([rs, rt], [rd])
  | .sll rd rs rt => ([rs, rt], [rd])
  | .sra rd rs rt => ([rs, rt], [rd])
  | .srl rd rs rt => ([rs, rt], [rd])
  | .seq rd rs rt => ([rs, rt], [rd])
  | .slt rd rs rt => ([rs, rt], [rd])
  | .sle rd rs rt => ([rs, rt], [rd])
  | .sco rd rs rt => ([rs, rt], [rd])

/-- Where an instruction stores, and the word it stores there (20_memory.md R45): ST and STU alone. -/
def storeOf (i : Instr) (s : State) : Option (Word × Word) :=
  match i with
  | .st rd rs imm => some (s.effectiveAddress rs imm, s.readReg rd)
  | .stu rd rs imm => some (s.effectiveAddress rs imm, s.readReg rd)
  | _ => none

/-- The next step of `s` stores to the address `a`. -/
def storesNext (s : State) (a : Word) : Prop := ∃ i v, s.nextInstr = some i ∧ storeOf i s = some (a, v)

/-- `next_pc` (10_state.md R24), in exact integers. -/
def nextPcOf (i : Instr) (s : State) : Word :=
  match i with
  | .j disp => wordOf (s.pc.toInt + 1 + disp.toInt)
  | .jal disp => wordOf (s.pc.toInt + 1 + disp.toInt)
  | .jr rs imm => wordOf ((s.readReg rs).toInt + imm.toInt)
  | .jalr rs imm => wordOf ((s.readReg rs).toInt + imm.toInt)
  | .beqz rs imm => if s.readReg rs = 0#16 then wordOf (s.pc.toInt + 1 + imm.toInt) else wordOf (s.pc.toInt + 1)
  | .bnez rs imm => if s.readReg rs ≠ 0#16 then wordOf (s.pc.toInt + 1 + imm.toInt) else wordOf (s.pc.toInt + 1)
  | .bltz rs imm => if (s.readReg rs).toInt < 0 then wordOf (s.pc.toInt + 1 + imm.toInt) else wordOf (s.pc.toInt + 1)
  | .bgez rs imm => if 0 ≤ (s.readReg rs).toInt then wordOf (s.pc.toInt + 1 + imm.toInt) else wordOf (s.pc.toInt + 1)
  | .rti => if s.iicImplemented then s.epc else wordOf (s.pc.toInt + 1)
  | _ => wordOf (s.pc.toInt + 1)

/-- The state with the issue of one instruction counted: IIC decremented if the extension is present and it counts
(10_state.md R30). -/
def counted (s : State) : State :=
  if s.iicImplemented = true ∧ s.iic ≠ 0#16 then { s with iic := s.iic - 1#16 } else s

/-- No instruction word of the program image is SIIC or RTI. -/
def NoSiicNoRti (s : State) : Prop :=
  ∀ a w, s.imem.read a = some w → decode w ≠ .rti ∧ ∀ rs, decode w ≠ .siic rs

/-- None of the first `n` steps from `s` runs SIIC. -/
def NoSiicFor (n : Nat) (s : State) : Prop :=
  ∀ k, k < n → ∀ u, RunsTo k s u → ∀ rs, u.nextInstr ≠ some (.siic rs)

/-- None of the first `n` steps from `s` stores to the address `a`. -/
def NoStoreFor (n : Nat) (s : State) (a : Word) : Prop :=
  ∀ k, k < n → ∀ u, RunsTo k s u → ¬ storesNext u a

/-- The same state on a processor with the extension. -/
def withExtension (s : State) : State := { s with iicImplemented := true }

end Sys2Proof.Statements

open Sys2Proof Sys2Proof.Machine Sys2Proof.Statements

/-! ### Encoding -/

/-- Decoding the encoding of any instruction gives it back, for all 38 and every operand value (30_encoding.md, the formats and
the opcode map). -/
def Obligations.DecodeOfEncode : Prop := ∀ i : Instr, decode (encode i) = i

/-- Encoding what a word decodes to gives the word back with its ignored bits 0, for every one of the 65536 words. The reading of
`x` as ignored and emitted as 0 is the spec's decision D5 (30_encoding.md R73; log 10). -/
def Obligations.EncodeOfDecodeClearsIgnoredBits : Prop :=
  ∀ w : Word, encode (decode w) = w &&& ~~~ignoredBits w

/-- Words the spec writes out decode to the instructions it names, one or more of every family: the words of 95_test_vectors.md
2.1, and 0x6104 of 2.6 (the example of 44_branches.md R150). All rest on the bit numbering of decision D1 (log 7, DEDUCED) and on
the register numbering of 10_state.md R20 (log 20, DEDUCED). The words 0x07FF, 0x0FFF, 0x17AB, 0x1FFF, 0xC9EF, 0xE14F and 0xFFFF,
whose ignored bits are not all 0, rest on decision D5 (30_encoding.md R73; log 10, DEDUCED). Of 0xA954 the decoder keeps the whole
field 0b10100; that bit 4 is ignored is the shift's own rule (41_alu_immediate.md R119). -/
def Obligations.SpecWordsDecode : Prop :=
  decode 0x0000#16 = .halt ∧ decode 0x07FF#16 = .halt ∧ decode 0x0FFF#16 = .nop ∧ decode 0x17AB#16 = .siic .r7 ∧
  decode 0x1FFF#16 = .rti ∧ decode 0x27FF#16 = .j 0x7FF#11 ∧ decode 0x2B00#16 = .jr .r3 0x00#8 ∧
  decode 0x3AFE#16 = .jalr .r2 0xFE#8 ∧ decode 0x4145#16 = .addi .r2 .r1 5#5 ∧ decode 0x8143#16 = .st .r2 .r1 3#5 ∧
  decode 0x9134#16 = .slbi .r1 0x34#8 ∧ decode 0xA954#16 = .slli .r2 .r1 0b10100#5 ∧
  decode 0x6104#16 = .beqz .r1 4#8 ∧ decode 0xC9EF#16 = .btr .r3 .r1 ∧ decode 0xD14E#16 = .sra .r3 .r1 .r2 ∧
  decode 0xD94D#16 = .sub .r3 .r1 .r2 ∧ decode 0xE14F#16 = .seq .r3 .r1 .r2 ∧ decode 0xFFFF#16 = .sco .r7 .r7 .r7

/-! ### The instruction cycle -/

/-- A step runs the instruction that the word at the pc decodes to (10_state.md R30, with the spec's decisions D9 to D11): in
the state with its issue counted; then, if that issue took IIC from one to zero and the instruction did not halt, EPC gets the
pc and the pc the constant 1. Where the instruction stops, so does the step. -/
def Obligations.StepRunsDecodedInstruction : Prop :=
  ∀ (s : State) (w : Word), s.halted = false → s.imem.read s.pc = some w →
    (∀ u, exec (decode w) (counted s) = .next u →
      step s = .next (if s.iicImplemented = true ∧ s.iic = 1#16 ∧ u.halted = false
        then { u with epc := u.pc, pc := 0x0001#16 } else u)) ∧
    (∀ f, exec (decode w) (counted s) = .fault f → step s = .fault f)

/-- A halted processor takes no step (10_state.md R28, decision D16; log 6), and a fetch from an address the program image does
not define stops the model (93_implementation_defined.md U11; log 4). -/
def Obligations.NoStepWhenHaltedOrNoInstruction : Prop :=
  ∀ s : State, (s.halted = true → step s = .fault .halted) ∧
    (s.halted = false → s.imem.read s.pc = none → step s = .fault (.noInstruction s.pc))

/-- Every instruction completes in every state, but LD from a data word that nothing has written; none is ever refused
(60_exceptions.md R210; the stop of LD is 93_implementation_defined.md U3, log 3). -/
def Obligations.EveryInstructionCompletes : Prop :=
  ∀ (i : Instr) (s : State),
    ((∀ rd rs imm, i = .ld rd rs imm → s.dmem.read (s.effectiveAddress rs imm) ≠ none) → ∃ t, exec i s = .next t) ∧
    ∀ q, exec i s ≠ .refused q

/-! ### Special and interrupt instructions -/

/-- HALT (46_special.md R190): the word with any low bits; halted, the pc directly after it, nothing else; and no step follows
(decision D16). -/
def Obligations.HaltStopsAfterItself : Prop :=
  ∀ (s : State) (x : BitVec 11), decode (0b00000#5 ++ x) = .halt ∧
    Completes .halt s fun t =>
      t.halted = true ∧ t.pc = s.pc + 1#16 ∧ RegsKept s t ∧ t.iic = s.iic ∧ t.epc = s.epc ∧
      t.iicImplemented = s.iicImplemented ∧ MemoriesKept s t ∧ step t = .fault .halted

/-- NOP (46_special.md R191): the pc moves on and nothing else changes. -/
def Obligations.NopOnlyAdvances : Prop :=
  ∀ (s : State) (x : BitVec 11), decode (0b00001#5 ++ x) = .nop ∧
    Completes .nop s fun t => GoesTo s t (s.pc + 1#16)

/-- SIIC (47_interrupt_instructions.md R200, its pseudocode and encoding): with the extension IIC gets the register's value,
without it nothing but the pc changes. -/
def Obligations.SiicLoadsTheCounter : Prop :=
  ∀ (s : State) (rs : Reg) (x : BitVec 8), decode (0b00010#5 ++ rs.bits ++ x) = .siic rs ∧
    Completes (.siic rs) s fun t =>
      t.iic = (if s.iicImplemented then s.readReg rs else s.iic) ∧ t.pc = s.pc + 1#16 ∧ RegsKept s t ∧
      t.epc = s.epc ∧ t.halted = s.halted ∧ t.iicImplemented = s.iicImplemented ∧ MemoriesKept s t

/-- RTI (47_interrupt_instructions.md R201, its pseudocode and encoding): with the extension the pc gets EPC, without it `pc + 1`;
nothing else is restored. -/
def Obligations.RtiLoadsThePc : Prop :=
  ∀ (s : State) (x : BitVec 11), decode (0b00011#5 ++ x) = .rti ∧
    Completes .rti s fun t => GoesTo s t (if s.iicImplemented then s.epc else s.pc + 1#16)

/-! ### Jumps -/

/-- J and JAL (40_jumps.md R100, R102): to `pc + 1` plus the signed displacement, modulo 2^16 (the pc's width is decision D2);
JAL leaves `pc + 1` in R7. -/
def Obligations.JumpAndJumpAndLink : Prop :=
  ∀ (s : State) (disp : BitVec 11),
    decode (0b00100#5 ++ disp) = .j disp ∧ decode (0b00110#5 ++ disp) = .jal disp ∧
    Completes (.j disp) s (fun t => GoesTo s t (wordOf (s.pc.toNat + 1 + disp.toInt))) ∧
    Completes (.jal disp) s (fun t => LinksAndGoesTo s t (wordOf (s.pc.toNat + 1 + disp.toInt)))

/-- JR (40_jumps.md R101): to the register's value plus the signed immediate. -/
def Obligations.JumpRegister : Prop :=
  ∀ (s : State) (rs : Reg) (imm : BitVec 8), decode (0b00101#5 ++ rs.bits ++ imm) = .jr rs imm ∧
    Completes (.jr rs imm) s fun t => GoesTo s t (wordOf ((s.readReg rs).toNat + imm.toInt))

/-- JALR (40_jumps.md R103): as JR, with `pc + 1` in R7; for rs = R7 too the target is of the register's value before the
instruction (decision D6; log 11). -/
def Obligations.JumpAndLinkRegister : Prop :=
  ∀ (s : State) (rs : Reg) (imm : BitVec 8), decode (0b00111#5 ++ rs.bits ++ imm) = .jalr rs imm ∧
    Completes (.jalr rs imm) s fun t => LinksAndGoesTo s t (wordOf ((s.readReg rs).toNat + imm.toInt))

/-- A JAL followed, anywhere, by `JR R7, 0` with R7 unchanged comes back to the instruction after the JAL (40_jumps.md R101,
R102; 30_encoding.md R77). -/
def Obligations.CallThenReturn : Prop :=
  ∀ (s t u : State) (disp : BitVec 11), exec (.jal disp) s = .next t → u.readReg .r7 = t.readReg .r7 →
    Completes (.jr .r7 0#8) u fun v => GoesTo u v (s.pc + 1#16)

/-! ### ALU and shift instructions with an immediate -/

/-- ADDI and SUBI (41_alu_immediate.md R110, R111): the exact sum, and the immediate minus the register, modulo 2^16. -/
def Obligations.AddiAndSubi : Prop :=
  ∀ (s : State) (rd rs : Reg) (imm : BitVec 5),
    decode (0b01000#5 ++ rs.bits ++ rd.bits ++ imm) = .addi rd rs imm ∧
    decode (0b01001#5 ++ rs.bits ++ rd.bits ++ imm) = .subi rd rs imm ∧
    Completes (.addi rd rs imm) s (fun t => WritesOnly s t rd (wordOf ((s.readReg rs).toInt + imm.toInt))) ∧
    Completes (.subi rd rs imm) s (fun t => WritesOnly s t rd (wordOf (imm.toInt - (s.readReg rs).toInt)))

/-- XORI and ANDNI (41_alu_immediate.md R112, R113), bit by bit: bits 15:5 pass through, and a 1 of the immediate flips, or
clears, the bit of the register. -/
def Obligations.XoriAndAndni : Prop :=
  ∀ (s : State) (rd rs : Reg) (imm : BitVec 5),
    decode (0b01010#5 ++ rs.bits ++ rd.bits ++ imm) = .xori rd rs imm ∧
    decode (0b01011#5 ++ rs.bits ++ rd.bits ++ imm) = .andni rd rs imm ∧
    Completes (.xori rd rs imm) s (fun t => ∃ v, WritesOnly s t rd v ∧ ∀ i, i < 16 →
      v.getLsbD i = if i < 5 then (s.readReg rs).getLsbD i ^^ imm.getLsbD i else (s.readReg rs).getLsbD i) ∧
    Completes (.andni rd rs imm) s (fun t => ∃ v, WritesOnly s t rd v ∧ ∀ i, i < 16 →
      v.getLsbD i = if i < 5 then (s.readReg rs).getLsbD i && !imm.getLsbD i else (s.readReg rs).getLsbD i)

/-- ROLI (41_alu_immediate.md R114): the register rotated left by `imm5[3:0]`. -/
def Obligations.RoliRotates : Prop :=
  ∀ (s : State) (rd rs : Reg) (imm : BitVec 5),
    decode (0b10100#5 ++ rs.bits ++ rd.bits ++ imm) = .roli rd rs imm ∧
    Completes (.roli rd rs imm) s fun t =>
      ∃ v, WritesOnly s t rd v ∧ IsRotl v (s.readReg rs) (imm.toNat % 16)

/-- SLLI and SRLI (41_alu_immediate.md R115, R117): the register shifted by `imm5[3:0]`, zeros entering. -/
def Obligations.SlliAndSrli : Prop :=
  ∀ (s : State) (rd rs : Reg) (imm : BitVec 5),
    decode (0b10101#5 ++ rs.bits ++ rd.bits ++ imm) = .slli rd rs imm ∧
    decode (0b10111#5 ++ rs.bits ++ rd.bits ++ imm) = .srli rd rs imm ∧
    Completes (.slli rd rs imm) s (fun t => ∃ v, WritesOnly s t rd v ∧ IsShl v (s.readReg rs) (imm.toNat % 16)) ∧
    Completes (.srli rd rs imm) s (fun t => ∃ v, WritesOnly s t rd v ∧ IsShrL v (s.readReg rs) (imm.toNat % 16))

/-- SRAI (41_alu_immediate.md R116): the register shifted right by `imm5[3:0]`, copies of the sign entering. -/
def Obligations.SraiShiftsTheSignIn : Prop :=
  ∀ (s : State) (rd rs : Reg) (imm : BitVec 5),
    decode (0b10110#5 ++ rs.bits ++ rd.bits ++ imm) = .srai rd rs imm ∧
    Completes (.srai rd rs imm) s fun t =>
      ∃ v, WritesOnly s t rd v ∧ IsShrA v (s.readReg rs) (imm.toNat % 16)

/-- SRAI and SRA are division by 2^n rounded toward minus infinity. For SRAI the spec derives this itself (41_alu_immediate.md
R116, from R119 and 00_scope.md R8); for SRA it is this model's inference from 45_alu_register.md R167 and R174, the same shift by
the four low bits of Rt. -/
def Obligations.ArithmeticShiftsRoundDown : Prop :=
  ∀ (s : State) (rd rs rt : Reg) (imm : BitVec 5),
    Completes (.srai rd rs imm) s (fun t =>
      (t.readReg rd).toInt = (s.readReg rs).toInt.fdiv (2 ^ (imm.toNat % 16))) ∧
    Completes (.sra rd rs rt) s (fun t =>
      (t.readReg rd).toInt = (s.readReg rs).toInt.fdiv (2 ^ ((s.readReg rt).toNat % 16)))

/-- The four shift immediates (41_alu_immediate.md R119): bit 4 of the immediate changes nothing, and an amount of 0 leaves the
value unchanged. -/
def Obligations.ShiftImmediatesIgnoreBitFour : Prop :=
  ∀ (s : State) (rd rs : Reg) (imm : BitVec 5), ∀ op ∈ [Instr.roli, Instr.slli, Instr.srai, Instr.srli],
    exec (op rd rs imm) s = exec (op rd rs (imm ^^^ 0b10000#5)) s ∧
    (imm.toNat % 16 = 0 → Completes (op rd rs imm) s fun t => WritesOnly s t rd (s.readReg rs))

/-! ### Load and store -/

/-- ST (42_load_store.md R130): the register's word at base plus signed immediate modulo 2^16, no register changed, and no other
word of memory. -/
def Obligations.StoreWritesOneWord : Prop :=
  ∀ (s : State) (rd rs : Reg) (imm : BitVec 5),
    decode (0b10000#5 ++ rs.bits ++ rd.bits ++ imm) = .st rd rs imm ∧
    s.effectiveAddress rs imm = wordOf ((s.readReg rs).toNat + imm.toInt) ∧
    Completes (.st rd rs imm) s fun t =>
      StoresOnly s t (s.effectiveAddress rs imm) (s.readReg rd) ∧ RegsKept s t ∧ t.pc = s.pc + 1#16 ∧ SpecialsKept s t

/-- LD (42_load_store.md R131): the word at base plus signed immediate in the destination. The last clause is the model's choice
(log 3, DESIGN CHOICE): R131 leaves the value of a word that nothing has written unspecified and recommends a fault of the model
(93_implementation_defined.md U3), and this model stops there as `unwrittenData`. -/
def Obligations.LoadReadsOneWord : Prop :=
  ∀ (s : State) (rd rs : Reg) (imm : BitVec 5),
    decode (0b10001#5 ++ rs.bits ++ rd.bits ++ imm) = .ld rd rs imm ∧
    (∀ v, s.dmem.read (wordOf ((s.readReg rs).toNat + imm.toInt)) = some v →
      Completes (.ld rd rs imm) s fun t => WritesOnly s t rd v) ∧
    (s.dmem.read (wordOf ((s.readReg rs).toNat + imm.toInt)) = none →
      exec (.ld rd rs imm) s = .fault (.unwrittenData (wordOf ((s.readReg rs).toNat + imm.toInt))))

/-- STU (42_load_store.md R132): as ST, and the base register gets the effective address. For rd = rs the word stored is the old
base (decision D6; log 11). -/
def Obligations.StoreWithUpdate : Prop :=
  ∀ (s : State) (rd rs : Reg) (imm : BitVec 5),
    decode (0b10011#5 ++ rs.bits ++ rd.bits ++ imm) = .stu rd rs imm ∧
    s.effectiveAddress rs imm = wordOf ((s.readReg rs).toNat + imm.toInt) ∧
    Completes (.stu rd rs imm) s fun t =>
      StoresOnly s t (s.effectiveAddress rs imm) (s.readReg rd) ∧ t.readReg rs = s.effectiveAddress rs imm ∧
      OtherRegsKept s t rs ∧ t.pc = s.pc + 1#16 ∧ SpecialsKept s t

/-- `MemWrite` (20_memory.md R45): of all instructions ST and STU alone write data memory; they complete, set the whole word at
their address, and change no other word. That no instruction writes instruction memory is the spec's decision D4 (20_memory.md
R42; log 9, DEDUCED). -/
def Obligations.OnlyStoresWriteDataMemory : Prop :=
  ∀ (i : Instr) (s : State),
    (∀ a v, storeOf i s = some (a, v) → Completes i s fun t => StoresOnly s t a v) ∧
    (storeOf i s = none → ∀ t, exec i s = .next t → MemoriesKept s t)

/-- A push with `STU Rd, Rs, -1` and a load through the new pointer (42_load_store.md R132, R131): the pointer is one less, and
the word pushed comes back, for every choice of registers, rd = rs too. -/
def Obligations.PushThenLoad : Prop :=
  ∀ (s : State) (rd rs q : Reg), ∃ t u, exec (.stu rd rs 0b11111#5) s = .next t ∧
    t.readReg rs = s.readReg rs - 1#16 ∧ exec (.ld q rs 0#5) t = .next u ∧ u.readReg q = s.readReg rd

/-- A load returns the word most recently stored to its address, however many steps lie between, interrupts included, if none of
them stores there (20_memory.md R44, R51; the order is decision D17, log 19). -/
def Obligations.LoadReturnsLatestStore : Prop :=
  ∀ (n : Nat) (s t u v : State) (a w : Word) (i : Instr) (rd rs : Reg) (imm : BitVec 5),
    s.nextInstr = some i → storeOf i s = some (a, w) → step s = .next t →
    RunsTo n t u → NoStoreFor n t a →
    u.nextInstr = some (.ld rd rs imm) → u.effectiveAddress rs imm = a →
    step u = .next v → v.readReg rd = w

/-- A data word that no step of a run stores to keeps its first value, or stays without one, and a load from it returns that
first value (20_memory.md R44, R51: "or the initial value if there is none"; the order is decision D17, log 19). -/
def Obligations.UnstoredWordKeepsItsValue : Prop :=
  ∀ (n : Nat) (s u : State) (a : Word), RunsTo n s u → NoStoreFor n s a →
    u.dmem.read a = s.dmem.read a ∧
    ∀ (rd rs : Reg) (imm : BitVec 5) (v : State), u.nextInstr = some (.ld rd rs imm) → u.effectiveAddress rs imm = a →
      step u = .next v → s.dmem.read a = some (v.readReg rd)

/-! ### Load immediate -/

/-- LBI (43_load_immediate.md R140): the signed immediate, whatever the register held. -/
def Obligations.LbiLoadsSignedByte : Prop :=
  ∀ (s : State) (rs : Reg) (imm : BitVec 8), decode (0b11000#5 ++ rs.bits ++ imm) = .lbi rs imm ∧
    Completes (.lbi rs imm) s fun t => WritesOnly s t rs (wordOf imm.toInt)

/-- SLBI (43_load_immediate.md R141): the low byte moves up and the immediate is the new low byte; after LBI it completes any
16-bit constant. -/
def Obligations.SlbiShiftsTheByteIn : Prop :=
  ∀ (s : State) (rs : Reg) (imm : BitVec 8), decode (0b10010#5 ++ rs.bits ++ imm) = .slbi rs imm ∧
    Completes (.slbi rs imm) s (fun t => WritesOnly s t rs ((s.readReg rs).extractLsb' 0 8 ++ imm)) ∧
    ∀ hi : BitVec 8, Completes (.lbi rs hi) s fun t =>
      Completes (.slbi rs imm) t fun u => u.readReg rs = hi ++ imm ∧ OtherRegsKept s u rs

/-! ### Branches -/

/-- BEQZ and BNEZ (44_branches.md R150, R151): taken for zero alone, and for everything else. -/
def Obligations.BranchOnZero : Prop :=
  ∀ (s : State) (rs : Reg) (imm : BitVec 8),
    decode (0b01100#5 ++ rs.bits ++ imm) = .beqz rs imm ∧ decode (0b01101#5 ++ rs.bits ++ imm) = .bnez rs imm ∧
    Completes (.beqz rs imm) s (fun t => GoesTo s t
      (if (s.readReg rs).toNat = 0 then wordOf (s.pc.toNat + 1 + imm.toInt) else s.pc + 1#16)) ∧
    Completes (.bnez rs imm) s (fun t => GoesTo s t
      (if (s.readReg rs).toNat = 0 then s.pc + 1#16 else wordOf (s.pc.toNat + 1 + imm.toInt)))

/-- BLTZ and BGEZ (44_branches.md R152, R153): by the sign bit, one the complement of the other. -/
def Obligations.BranchOnSign : Prop :=
  ∀ (s : State) (rs : Reg) (imm : BitVec 8),
    decode (0b01110#5 ++ rs.bits ++ imm) = .bltz rs imm ∧ decode (0b01111#5 ++ rs.bits ++ imm) = .bgez rs imm ∧
    Completes (.bltz rs imm) s (fun t => GoesTo s t
      (if (s.readReg rs).getLsbD 15 then wordOf (s.pc.toNat + 1 + imm.toInt) else s.pc + 1#16)) ∧
    Completes (.bgez rs imm) s (fun t => GoesTo s t
      (if (s.readReg rs).getLsbD 15 then s.pc + 1#16 else wordOf (s.pc.toNat + 1 + imm.toInt)))

/-! ### Register-register ALU, shift and set instructions -/

/-- BTR (45_alu_register.md R160): bit i of the result is bit 15 - i of Rs, whatever the ignored bits hold; twice restores the
value. -/
def Obligations.BtrReverses : Prop :=
  ∀ (s : State) (rd rs : Reg) (x : BitVec 3) (y : BitVec 2),
    decode (0b11001#5 ++ rs.bits ++ x ++ rd.bits ++ y) = .btr rd rs ∧
    Completes (.btr rd rs) s fun t =>
      (∃ v, WritesOnly s t rd v ∧ ∀ i, i < 16 → v.getLsbD i = (s.readReg rs).getLsbD (15 - i)) ∧
      Completes (.btr rd rd) t fun u => u.readReg rd = s.readReg rs

/-- ADD and SUB (45_alu_register.md R161, R162): the sum, and Rt minus Rs, of the signed values, modulo 2^16. -/
def Obligations.AddAndSub : Prop :=
  ∀ (s : State) (rd rs rt : Reg),
    decode (0b11011#5 ++ rs.bits ++ rt.bits ++ rd.bits ++ 0b00#2) = .add rd rs rt ∧
    decode (0b11011#5 ++ rs.bits ++ rt.bits ++ rd.bits ++ 0b01#2) = .sub rd rs rt ∧
    Completes (.add rd rs rt) s
      (fun t => WritesOnly s t rd (wordOf ((s.readReg rs).toInt + (s.readReg rt).toInt))) ∧
    Completes (.sub rd rs rt) s
      (fun t => WritesOnly s t rd (wordOf ((s.readReg rt).toInt - (s.readReg rs).toInt)))

/-- XOR and ANDN (45_alu_register.md R163, R164), bit by bit: it is Rt that is complemented. -/
def Obligations.XorAndAndn : Prop :=
  ∀ (s : State) (rd rs rt : Reg),
    decode (0b11011#5 ++ rs.bits ++ rt.bits ++ rd.bits ++ 0b10#2) = .xor rd rs rt ∧
    decode (0b11011#5 ++ rs.bits ++ rt.bits ++ rd.bits ++ 0b11#2) = .andn rd rs rt ∧
    Completes (.xor rd rs rt) s (fun t => ∃ v, WritesOnly s t rd v ∧ ∀ i, i < 16 →
      v.getLsbD i = ((s.readReg rs).getLsbD i ^^ (s.readReg rt).getLsbD i)) ∧
    Completes (.andn rd rs rt) s (fun t => ∃ v, WritesOnly s t rd v ∧ ∀ i, i < 16 →
      v.getLsbD i = ((s.readReg rs).getLsbD i && !(s.readReg rt).getLsbD i))

/-- ROL (45_alu_register.md R165): Rs rotated left by the four low bits of Rt. -/
def Obligations.RolRotates : Prop :=
  ∀ (s : State) (rd rs rt : Reg),
    decode (0b11010#5 ++ rs.bits ++ rt.bits ++ rd.bits ++ 0b00#2) = .rol rd rs rt ∧
    Completes (.rol rd rs rt) s fun t =>
      ∃ v, WritesOnly s t rd v ∧ IsRotl v (s.readReg rs) ((s.readReg rt).toNat % 16)

/-- SLL and SRL (45_alu_register.md R166, R168): Rs shifted by the four low bits of Rt, zeros entering. -/
def Obligations.SllAndSrl : Prop :=
  ∀ (s : State) (rd rs rt : Reg),
    decode (0b11010#5 ++ rs.bits ++ rt.bits ++ rd.bits ++ 0b01#2) = .sll rd rs rt ∧
    decode (0b11010#5 ++ rs.bits ++ rt.bits ++ rd.bits ++ 0b11#2) = .srl rd rs rt ∧
    Completes (.sll rd rs rt) s
      (fun t => ∃ v, WritesOnly s t rd v ∧ IsShl v (s.readReg rs) ((s.readReg rt).toNat % 16)) ∧
    Completes (.srl rd rs rt) s
      (fun t => ∃ v, WritesOnly s t rd v ∧ IsShrL v (s.readReg rs) ((s.readReg rt).toNat % 16))

/-- SRA (45_alu_register.md R167): Rs shifted right by the four low bits of Rt, copies of its sign entering. -/
def Obligations.SraShiftsTheSignIn : Prop :=
  ∀ (s : State) (rd rs rt : Reg),
    decode (0b11010#5 ++ rs.bits ++ rt.bits ++ rd.bits ++ 0b10#2) = .sra rd rs rt ∧
    Completes (.sra rd rs rt) s fun t =>
      ∃ v, WritesOnly s t rd v ∧ IsShrA v (s.readReg rs) ((s.readReg rt).toNat % 16)

/-- SEQ (45_alu_register.md R169): 1 if the 16 bits are equal, else 0. That every value of bits 1:0 decodes to SEQ is the spec's
decision D5 (30_encoding.md R73, 45_alu_register.md R175; log 10, DEDUCED). -/
def Obligations.SeqComparesAllBits : Prop :=
  ∀ (s : State) (rd rs rt : Reg) (x : BitVec 2),
    decode (0b11100#5 ++ rs.bits ++ rt.bits ++ rd.bits ++ x) = .seq rd rs rt ∧
    Completes (.seq rd rs rt) s fun t => WritesOnly s t rd
      (if (s.readReg rs).toNat = (s.readReg rt).toNat then 0x0001#16 else 0x0000#16)

/-- SLT and SLE (45_alu_register.md R170, R171): 1 if the mathematical signed values compare so, else 0. That every value of bits
1:0 decodes to them is the spec's decision D5 (30_encoding.md R73, 45_alu_register.md R175; log 10, DEDUCED). -/
def Obligations.SltAndSleCompareSigned : Prop :=
  ∀ (s : State) (rd rs rt : Reg) (x : BitVec 2),
    decode (0b11101#5 ++ rs.bits ++ rt.bits ++ rd.bits ++ x) = .slt rd rs rt ∧
    decode (0b11110#5 ++ rs.bits ++ rt.bits ++ rd.bits ++ x) = .sle rd rs rt ∧
    Completes (.slt rd rs rt) s (fun t => WritesOnly s t rd
      (if (s.readReg rs).toInt < (s.readReg rt).toInt then 0x0001#16 else 0x0000#16)) ∧
    Completes (.sle rd rs rt) s (fun t => WritesOnly s t rd
      (if (s.readReg rs).toInt ≤ (s.readReg rt).toInt then 0x0001#16 else 0x0000#16))

/-- SCO (45_alu_register.md R172): bit 16 of the exact 17-bit sum of the unsigned values. That every value of bits 1:0 decodes to
SCO is the spec's decision D5 (30_encoding.md R73, 45_alu_register.md R175; log 10, DEDUCED). -/
def Obligations.ScoGivesTheCarry : Prop :=
  ∀ (s : State) (rd rs rt : Reg) (x : BitVec 2),
    decode (0b11111#5 ++ rs.bits ++ rt.bits ++ rd.bits ++ x) = .sco rd rs rt ∧
    Completes (.sco rd rs rt) s fun t => WritesOnly s t rd
      (if ((s.readReg rs).setWidth 17 + (s.readReg rt).setWidth 17).getLsbD 16 then 0x0001#16 else 0x0000#16)

/-- SCO paired with ADD gives the exact sum of two unsigned words (45_alu_register.md R172: "pair with ADD for multi-word
addition"). -/
def Obligations.ScoAndAddGiveTheExactSum : Prop :=
  ∀ (s : State) (rc rd rs rt : Reg), rc ≠ rs → rc ≠ rt → rc ≠ rd →
    Completes (.sco rc rs rt) s fun t => Completes (.add rd rs rt) t fun u =>
      65536 * (u.readReg rc).toNat + (u.readReg rd).toNat = (s.readReg rs).toNat + (s.readReg rt).toNat

/-- NOT, AND and OR composed as the spec says (45_alu_register.md R164). -/
def Obligations.NotAndOrIdioms : Prop :=
  ∀ (s : State) (rd ra rb tmp : Reg),
    (Completes (.subi rd ra 0b11111#5) s fun t => t.readReg rd = ~~~s.readReg ra) ∧
    (tmp ≠ ra → Completes (.subi tmp rb 0b11111#5) s fun t => Completes (.andn rd ra tmp) t fun u =>
      u.readReg rd = s.readReg ra &&& s.readReg rb) ∧
    (tmp ≠ rb → Completes (.andn tmp ra rb) s fun t => Completes (.xor rd tmp rb) t fun u =>
      u.readReg rd = s.readReg ra ||| s.readReg rb)

/-! ### Rules about all instructions -/

/-- The table of 10_state.md R22, as what an instruction can change and what it can depend on: it changes no general register
but those it writes; and in two states that differ in general registers it does not read, it writes the same values, goes to
the same address, and leaves the same counter, EPC, halt state and data memory. -/
def Obligations.RegisterUseIsAsTabled : Prop :=
  ∀ (i : Instr) (s t : State) (f : RegFile), exec i s = .next t →
    (∀ r, r ∈ (registerUse s.iicImplemented i).1 → ({ s with regs := f } : State).readReg r = s.readReg r) →
    (∀ r, r ∉ (registerUse s.iicImplemented i).2 → t.readReg r = s.readReg r) ∧
    Completes i { s with regs := f } fun t' =>
      (∀ r, r ∈ (registerUse s.iicImplemented i).2 → t'.readReg r = t.readReg r) ∧
      t'.pc = t.pc ∧ t'.iic = t.iic ∧ t'.epc = t.epc ∧ t'.halted = t.halted ∧ ∀ a, t'.dmem.read a = t.dmem.read a

/-- How the pc advances (10_state.md R24; the 16-bit width is decision D2): the table of `next_pc`, for all 38 instructions. -/
def Obligations.NextPcIsAsTabled : Prop :=
  ∀ (i : Instr) (s t : State), exec i s = .next t → t.pc = nextPcOf i s

/-- HALT alone halts (10_state.md R28, 46_special.md R190): after a step the processor is halted exactly if the step ran HALT. -/
def Obligations.OnlyHaltHalts : Prop :=
  ∀ s t : State, step s = .next t → (t.halted = true ↔ s.nextInstr = some .halt)

/-- No run, however long, changes the program image or the extension parameter, so no store reaches an instruction that is
fetched later (20_memory.md R42, R54, decision D4; 10_state.md R33). -/
def Obligations.RunKeepsProgram : Prop :=
  ∀ (n : Nat) (s t : State), RunsTo n s t → t.imem = s.imem ∧ t.iicImplemented = s.iicImplemented

/-- Every step keeps both memories in canonical form. An invariant of the model (log 3, 4, 21). -/
def Obligations.StepKeepsCanonicalMemories : Prop :=
  ∀ s t : State, s.Canonical → step s = .next t → t.Canonical

/-! ### Reset -/

/-- The reset state has canonical memories, for any canonical images, and so has `State.reset`. -/
def Obligations.ResetIsCanonical : Prop :=
  State.reset.Canonical ∧ ∀ b imem dmem regs epc, imem.wf = true → dmem.wf = true →
    (State.resetWith b imem dmem regs epc).Canonical

/-- What reset leaves (10_state.md R31, 70_reset_and_hazards.md R240, R241; decisions D14, D15, D20), whatever the open parameters are:
pc and IIC 0, not halted, the images in place, and the word at address 0 the first to run. -/
def Obligations.ResetStartsAtAddressZero : Prop :=
  ∀ b imem dmem regs epc,
    (State.resetWith b imem dmem regs epc).pc = 0x0000#16 ∧ (State.resetWith b imem dmem regs epc).iic = 0x0000#16 ∧
    (State.resetWith b imem dmem regs epc).halted = false ∧
    (State.resetWith b imem dmem regs epc).dmem = dmem ∧ (State.resetWith b imem dmem regs epc).imem = imem ∧
    ∀ w, imem.read 0x0000#16 = some w → (State.resetWith b imem dmem regs epc).nextInstr = some (decode w)

/-! ### The issue counter and the interrupt -/

/-- The counter is decremented for each instruction issued and stops at zero (10_state.md R26, R30; decision D9), by every step that
does not run SIIC; without the extension it does not move. -/
def Obligations.EveryIssueCounts : Prop :=
  ∀ s t : State, step s = .next t → (∀ rs, s.nextInstr ≠ some (.siic rs)) →
    t.iic.toNat = if s.iicImplemented then s.iic.toNat - 1 else s.iic.toNat

/-- EPC is written by the taking of the interrupt alone (10_state.md R27, 60_exceptions.md R214, R219): a step that changes it took IIC
from one to zero, ran no HALT, and left the pc at 1. -/
def Obligations.EpcWrittenByInterruptAlone : Prop :=
  ∀ s t : State, step s = .next t → t.epc ≠ s.epc →
    s.iicImplemented = true ∧ s.iic = 1#16 ∧ s.nextInstr ≠ some .halt ∧ t.pc = 0x0001#16

/-- The interrupt is precise (60_exceptions.md R214 to R216, R219; decisions D10, D11, D13): the step whose issue takes IIC from one
to zero does all that the same step would do with nothing counting, and then, unless it halted, EPC gets the address that would
execute next and the pc the constant 1; nothing else changes. It stops exactly where that step would. -/
def Obligations.InterruptIsPrecise : Prop :=
  ∀ s : State, s.iicImplemented = true → s.iic = 1#16 →
    (∀ u, step { s with iic := 0#16 } = .next u →
      step s = .next (if u.halted then u else { u with epc := u.pc, pc := 0x0001#16 })) ∧
    (∀ f, step { s with iic := 0#16 } = .fault f → step s = .fault f)

/-- RTI right after the interrupt gives back the state the program would have been in without it, but for EPC
(60_exceptions.md R217; decision D10). -/
def Obligations.ReturnResumesTheProgram : Prop :=
  ∀ s t : State, s.iicImplemented = true → s.iic = 1#16 → s.nextInstr ≠ some .halt → step s = .next t →
    ∃ u, step { s with iic := 0#16 } = .next u ∧ t.epc = u.pc ∧
      Completes .rti t fun v => v.pc = u.pc ∧ RegsKept u v ∧ MemoriesKept u v ∧ v.iic = u.iic ∧ v.halted = u.halted

/-- HALT as the instruction whose issue takes IIC to zero (60_exceptions.md R219; decision D13, log 16): the halt wins. -/
def Obligations.HaltWinsAtExpiry : Prop :=
  ∀ s : State, s.iicImplemented = true → s.iic = 1#16 → s.nextInstr = some .halt →
    ∃ t, step s = .next t ∧ t.halted = true ∧ t.pc = s.pc + 1#16 ∧ t.iic = 0#16 ∧ t.epc = s.epc ∧
      RegsKept s t ∧ MemoriesKept s t ∧ step t = .fault .halted

/-- SIIC issued while the counter counts (60_exceptions.md R218; decision D12, log 15): the new value is loaded whatever the old
count was, and if the old count was one the interrupt is taken after the SIIC. -/
def Obligations.SiicWhileCounting : Prop :=
  ∀ (s : State) (rs : Reg), s.iicImplemented = true → s.nextInstr = some (.siic rs) →
    ∃ t, step s = .next t ∧ t.iic = s.readReg rs ∧ RegsKept s t ∧ MemoriesKept s t ∧ t.halted = false ∧
      (s.iic = 1#16 → t.epc = s.pc + 1#16 ∧ t.pc = 0x0001#16) ∧
      (s.iic ≠ 1#16 → t.epc = s.epc ∧ t.pc = s.pc + 1#16)

/-- SIIC with the counter at rest lets exactly the loaded number of instructions issue before the interrupt (47_interrupt_instructions.md
R200, 60_exceptions.md R213, R214; the count of issues is decision D9): over any run after it in which no other SIIC is run, the
counter has gone down by the number of steps, EPC is unwritten until the count is reached, and at that very step, unless it
halted, the pc is the handler's. A count of zero never fires. -/
def Obligations.SiicCountsExactly : Prop :=
  ∀ (n : Nat) (s t u : State) (rs : Reg), s.iicImplemented = true → s.iic = 0#16 → s.nextInstr = some (.siic rs) →
    step s = .next t → RunsTo n t u → NoSiicFor n t →
    (n ≤ (s.readReg rs).toNat → u.iic.toNat = (s.readReg rs).toNat - n) ∧
    (n < (s.readReg rs).toNat → u.epc = s.epc) ∧
    (0 < n → n = (s.readReg rs).toNat → u.halted = false → u.pc = 0x0001#16 ∧ u.iic = 0#16) ∧
    ((s.readReg rs).toNat = 0 → u.epc = s.epc ∧ u.iic = 0#16)

/-- Without the extension (60_exceptions.md R231, 47_interrupt_instructions.md R200, R201): SIIC and RTI do what NOP does, and no step
touches IIC or EPC. -/
def Obligations.WithoutExtensionNoCounter : Prop :=
  ∀ s : State, s.iicImplemented = false →
    exec .rti s = exec .nop s ∧ (∀ rs, exec (.siic rs) s = exec .nop s) ∧
    ∀ t, step s = .next t → t.iic = s.iic ∧ t.epc = s.epc

/-- A program that holds neither SIIC nor RTI runs alike on a processor without the extension and on one with it, from a state
whose counter is at rest: after any number of steps, next state for next state, and fault for fault (60_exceptions.md R231, which the
spec derives). -/
def Obligations.ExtensionIsInvisible : Prop :=
  ∀ (n : Nat) (s : State), s.iicImplemented = false → s.iic = 0#16 → NoSiicNoRti s →
    (∀ t, RunsTo n s t → RunsTo n (withExtension s) (withExtension t)) ∧
    (∀ f, Host.Core.run Sys2Proof.core n s = .fault f →
      Host.Core.run Sys2Proof.core n (withExtension s) = .fault f)
end

