-- ==== Sys2Proof/Laws/Decode.lean ====
section
/-! SUPPORT. Small lemmas about the fields of an instruction word (30_encoding.md R60 to R65): reading a field of a word that is
written as its fields side by side gives the field back. -/

namespace Sys2Proof

theorem Reg.ofBits_bits (r : Reg) : Reg.ofBits r.bits = r := by cases r <;> rfl

theorem Reg.bits_ofBits (b : BitVec 3) : (Reg.ofBits b).bits = b := by
  revert b; decide

/-- Two strings side by side, read from inside the low one. -/
theorem extractLsb'_append_low {m k : Nat} (a : BitVec m) (b : BitVec k) (lo n : Nat) (h : lo + n ≤ k) :
    (a ++ b).extractLsb' lo n = b.extractLsb' lo n := by
  apply BitVec.eq_of_getLsbD_eq
  intro i hi
  have : lo + i < k := by omega
  simp [BitVec.getLsbD_append, hi, this]

/-- Two strings side by side, read from inside the high one. -/
theorem extractLsb'_append_high {m k : Nat} (a : BitVec m) (b : BitVec k) (lo n : Nat) (h : k ≤ lo) :
    (a ++ b).extractLsb' lo n = a.extractLsb' (lo - k) n := by
  apply BitVec.eq_of_getLsbD_eq
  intro i hi
  have h1 : ¬ lo + i < k := by omega
  have h2 : lo + i - k = lo - k + i := by omega
  simp [BitVec.getLsbD_append, hi, h1, h2]

/-! ### The bits of a word, field by field -/

theorem packJ_getLsbD (op : BitVec 5) (x : BitVec 11) (i : Nat) :
    (packJ op x).getLsbD i = if i < 11 then x.getLsbD i else op.getLsbD (i - 11) := by
  unfold packJ; rw [BitVec.getLsbD_append]

theorem packI2_getLsbD (op : BitVec 5) (a : BitVec 3) (x : BitVec 8) (i : Nat) :
    (packI2 op a x).getLsbD i =
      if i < 8 then x.getLsbD i else if i - 8 < 3 then a.getLsbD (i - 8) else op.getLsbD (i - 8 - 3) := by
  unfold packI2; rw [BitVec.getLsbD_append, BitVec.getLsbD_append]

theorem packI1_getLsbD (op : BitVec 5) (a b : BitVec 3) (x : BitVec 5) (i : Nat) :
    (packI1 op a b x).getLsbD i =
      if i < 5 then x.getLsbD i else if i - 5 < 3 then b.getLsbD (i - 5)
      else if i - 5 - 3 < 3 then a.getLsbD (i - 5 - 3) else op.getLsbD (i - 5 - 3 - 3) := by
  unfold packI1; rw [BitVec.getLsbD_append, BitVec.getLsbD_append, BitVec.getLsbD_append]

theorem packR_getLsbD (op : BitVec 5) (a b d : BitVec 3) (e : BitVec 2) (i : Nat) :
    (packR op a b d e).getLsbD i =
      if i < 2 then e.getLsbD i else if i - 2 < 3 then d.getLsbD (i - 2)
      else if i - 2 - 3 < 3 then b.getLsbD (i - 2 - 3)
      else if i - 2 - 3 - 3 < 3 then a.getLsbD (i - 2 - 3 - 3) else op.getLsbD (i - 2 - 3 - 3 - 3) := by
  unfold packR; rw [BitVec.getLsbD_append, BitVec.getLsbD_append, BitVec.getLsbD_append, BitVec.getLsbD_append]

/-! ### The J-format and the layout N -/

theorem opField_packJ (op : BitVec 5) (x : BitVec 11) : opField (packJ op x) = op := by
  unfold opField packJ
  rw [extractLsb'_append_high _ _ _ _ (by decide)]
  simp

theorem disp11Field_packJ (op : BitVec 5) (x : BitVec 11) : disp11Field (packJ op x) = x := by
  unfold disp11Field packJ
  rw [extractLsb'_append_low _ _ _ _ (by decide)]
  simp

/-! ### I-format 2 -/

theorem opField_packI2 (op : BitVec 5) (a : BitVec 3) (x : BitVec 8) : opField (packI2 op a x) = op := by
  unfold opField packI2
  rw [extractLsb'_append_high _ _ _ _ (by decide), extractLsb'_append_high _ _ _ _ (by decide)]
  simp

theorem rsField_packI2 (op : BitVec 5) (a : BitVec 3) (x : BitVec 8) : rsField (packI2 op a x) = Reg.ofBits a := by
  unfold rsField packI2
  rw [extractLsb'_append_high _ _ _ _ (by decide), extractLsb'_append_low _ _ _ _ (by decide)]
  simp

theorem imm8Field_packI2 (op : BitVec 5) (a : BitVec 3) (x : BitVec 8) : imm8Field (packI2 op a x) = x := by
  unfold imm8Field packI2
  rw [extractLsb'_append_low _ _ _ _ (by decide)]
  simp

/-! ### I-format 1 -/

theorem opField_packI1 (op : BitVec 5) (a b : BitVec 3) (x : BitVec 5) : opField (packI1 op a b x) = op := by
  unfold opField packI1
  rw [extractLsb'_append_high _ _ _ _ (by decide), extractLsb'_append_high _ _ _ _ (by decide),
    extractLsb'_append_high _ _ _ _ (by decide)]
  simp

theorem rsField_packI1 (op : BitVec 5) (a b : BitVec 3) (x : BitVec 5) :
    rsField (packI1 op a b x) = Reg.ofBits a := by
  unfold rsField packI1
  rw [extractLsb'_append_high _ _ _ _ (by decide), extractLsb'_append_high _ _ _ _ (by decide),
    extractLsb'_append_low _ _ _ _ (by decide)]
  simp

theorem rdField1_packI1 (op : BitVec 5) (a b : BitVec 3) (x : BitVec 5) :
    rdField1 (packI1 op a b x) = Reg.ofBits b := by
  unfold rdField1 packI1
  rw [extractLsb'_append_high _ _ _ _ (by decide), extractLsb'_append_low _ _ _ _ (by decide)]
  simp

theorem imm5Field_packI1 (op : BitVec 5) (a b : BitVec 3) (x : BitVec 5) : imm5Field (packI1 op a b x) = x := by
  unfold imm5Field packI1
  rw [extractLsb'_append_low _ _ _ _ (by decide)]
  simp

/-! ### The R-format -/

theorem opField_packR (op : BitVec 5) (a b d : BitVec 3) (e : BitVec 2) : opField (packR op a b d e) = op := by
  unfold opField packR
  rw [extractLsb'_append_high _ _ _ _ (by decide), extractLsb'_append_high _ _ _ _ (by decide),
    extractLsb'_append_high _ _ _ _ (by decide), extractLsb'_append_high _ _ _ _ (by decide)]
  simp

theorem rsField_packR (op : BitVec 5) (a b d : BitVec 3) (e : BitVec 2) :
    rsField (packR op a b d e) = Reg.ofBits a := by
  unfold rsField packR
  rw [extractLsb'_append_high _ _ _ _ (by decide), extractLsb'_append_high _ _ _ _ (by decide),
    extractLsb'_append_high _ _ _ _ (by decide), extractLsb'_append_low _ _ _ _ (by decide)]
  simp

theorem rtField_packR (op : BitVec 5) (a b d : BitVec 3) (e : BitVec 2) :
    rtField (packR op a b d e) = Reg.ofBits b := by
  unfold rtField packR
  rw [extractLsb'_append_high _ _ _ _ (by decide), extractLsb'_append_high _ _ _ _ (by decide),
    extractLsb'_append_low _ _ _ _ (by decide)]
  simp

theorem rdField_packR (op : BitVec 5) (a b d : BitVec 3) (e : BitVec 2) :
    rdField (packR op a b d e) = Reg.ofBits d := by
  unfold rdField packR
  rw [extractLsb'_append_high _ _ _ _ (by decide), extractLsb'_append_low _ _ _ _ (by decide)]
  simp

theorem extField_packR (op : BitVec 5) (a b d : BitVec 3) (e : BitVec 2) : extField (packR op a b d e) = e := by
  unfold extField packR
  rw [extractLsb'_append_low _ _ _ _ (by decide)]
  simp

end Sys2Proof
end

