-- ==== Sys2Proof/Laws/Memory.lean ====
section
/-! SUPPORT. The laws of a memory (20_memory.md R43 to R45): reading after a write, and the canonical form, which every operation
keeps and in which equal memories are equal data. -/

namespace Sys2Proof.Machine

/-! ### Reading after a write -/

theorem lookupCell_insertCell (cells : List WordCell) (a b : Nat) (v : Word) :
    lookupCell (insertCell cells a v) b = if b = a then some v else lookupCell cells b := by
  induction cells with
  | nil => simp [insertCell, lookupCell]
  | cons c rest ih =>
    obtain ⟨k, w⟩ := c
    simp only [insertCell]
    split
    · simp [lookupCell]
    · split
      · subst k; simp only [lookupCell]; split <;> rfl
      · simp only [lookupCell, ih]
        by_cases hb : b = k
        · simp [hb, show k ≠ a by omega]
        · simp [hb]

/-- `MemWrite` sets the word at its address and no other (20_memory.md R45). -/
theorem Memory.read_write (m : Memory) (a v b : Word) :
    (m.write a v).read b = if b = a then some v else m.read b := by
  simp only [Memory.read, Memory.write, lookupCell_insertCell, BitVec.toNat_inj]

@[simp] theorem Memory.read_write_self (m : Memory) (a v : Word) : (m.write a v).read a = some v := by
  simp [Memory.read_write]

theorem Memory.read_write_ne (m : Memory) (a v b : Word) (h : b ≠ a) : (m.write a v).read b = m.read b := by
  simp [Memory.read_write, h]

@[simp] theorem Memory.empty_read (a : Word) : Memory.empty.read a = none := rfl

/-! ### The canonical form -/

theorem risingFrom_mono {lo lo' : Nat} {cells : List WordCell} (h : lo' ≤ lo) (hr : risingFrom lo cells = true) :
    risingFrom lo' cells = true := by
  cases cells with
  | nil => rfl
  | cons c rest =>
    obtain ⟨k, w⟩ := c
    simp only [risingFrom, Bool.and_eq_true, decide_eq_true_eq] at *
    exact ⟨⟨by omega, hr.1.2⟩, hr.2⟩

theorem risingFrom_insertCell (cells : List WordCell) (lo a : Nat) (v : Word) (hlo : lo ≤ a) (ha : a < 2 ^ 16)
    (h : risingFrom lo cells = true) : risingFrom lo (insertCell cells a v) = true := by
  induction cells generalizing lo with
  | nil => simp [insertCell, risingFrom]; omega
  | cons c rest ih =>
    obtain ⟨k, w⟩ := c
    simp only [risingFrom, Bool.and_eq_true, decide_eq_true_eq] at h
    simp only [insertCell]
    split
    · simp only [risingFrom, Bool.and_eq_true, decide_eq_true_eq]
      exact ⟨⟨hlo, ha⟩, ⟨by omega, h.1.2⟩, h.2⟩
    · split
      · subst k
        simp only [risingFrom, Bool.and_eq_true, decide_eq_true_eq]
        exact h
      · simp only [risingFrom, Bool.and_eq_true, decide_eq_true_eq]
        exact ⟨h.1, ih (k + 1) (by omega) h.2⟩

/-- A write keeps the canonical form. -/
theorem Memory.write_wf (m : Memory) (a v : Word) (h : m.wf = true) : (m.write a v).wf = true :=
  risingFrom_insertCell m.cells 0 a.toNat v (Nat.zero_le _) a.isLt h

theorem Memory.empty_wf : Memory.empty.wf = true := rfl

theorem lookupCell_below {lo a : Nat} {cells : List WordCell} (h : risingFrom lo cells = true) (ha : a < lo) :
    lookupCell cells a = none := by
  induction cells generalizing lo with
  | nil => rfl
  | cons c rest ih =>
    obtain ⟨k, w⟩ := c
    simp only [risingFrom, Bool.and_eq_true, decide_eq_true_eq] at h
    have : a ≠ k := by omega
    simp [lookupCell, this, ih h.2 (by omega)]

theorem lookupCell_ext {lo : Nat} {xs ys : List WordCell} (hx : risingFrom lo xs = true) (hy : risingFrom lo ys = true)
    (h : ∀ a, a < 2 ^ 16 → lookupCell xs a = lookupCell ys a) : xs = ys := by
  induction xs generalizing lo ys with
  | nil =>
    cases ys with
    | nil => rfl
    | cons d ys =>
      obtain ⟨k, w⟩ := d
      simp only [risingFrom, Bool.and_eq_true, decide_eq_true_eq] at hy
      simpa [lookupCell] using h k hy.1.2
  | cons c xs ih =>
    obtain ⟨j, v⟩ := c
    cases ys with
    | nil =>
      simp only [risingFrom, Bool.and_eq_true, decide_eq_true_eq] at hx
      simpa [lookupCell] using h j hx.1.2
    | cons d ys =>
      obtain ⟨k, w⟩ := d
      simp only [risingFrom, Bool.and_eq_true, decide_eq_true_eq] at hx hy
      have hj := h j hx.1.2
      have hk := h k hy.1.2
      have hjk : j = k := by
        rcases Nat.lt_trichotomy j k with hlt | heq | hgt
        · simp [lookupCell, show j ≠ k by omega, lookupCell_below hy.2 (by omega : j < k + 1)] at hj
        · exact heq
        · simp [lookupCell, show k ≠ j by omega, lookupCell_below hx.2 (by omega : k < j + 1)] at hk
      subst k
      have hvw : v = w := by simpa [lookupCell] using hj
      subst w
      congr 1
      refine ih hx.2 hy.2 fun a ha => ?_
      by_cases haj : a = j
      · subst a; rw [lookupCell_below hx.2 (by omega), lookupCell_below hy.2 (by omega)]
      · simpa [lookupCell, haj] using h a ha

/-- In the canonical form, memories that read the same at every address are the same data. -/
theorem Memory.ext_of_read (m n : Memory) (hm : m.wf = true) (hn : n.wf = true) (h : ∀ a, m.read a = n.read a) :
    m = n := by
  cases m; cases n
  congr 1
  refine lookupCell_ext hm hn fun a ha => ?_
  have := h (BitVec.ofNat 16 a)
  simpa only [Memory.read, BitVec.toNat_ofNat, Nat.mod_eq_of_lt ha] using this

end Sys2Proof.Machine
end

