-- ==== Sys2Proof/Laws/State.lean ====
section
/-! SUPPORT. One lemma per field per update of the state, so that no proof unfolds an update; and what each update leaves of the
registers as `readReg` reads them. -/

namespace Sys2Proof.Machine

/-! ### writeReg -/

@[simp] theorem State.writeReg_regs (s : State) (r : Reg) (v : Word) : (s.writeReg r v).regs = s.regs.set r v := rfl

@[simp] theorem State.writeReg_pc (s : State) (r : Reg) (v : Word) : (s.writeReg r v).pc = s.pc := rfl

@[simp] theorem State.writeReg_iic (s : State) (r : Reg) (v : Word) : (s.writeReg r v).iic = s.iic := rfl

@[simp] theorem State.writeReg_epc (s : State) (r : Reg) (v : Word) : (s.writeReg r v).epc = s.epc := rfl

@[simp] theorem State.writeReg_halted (s : State) (r : Reg) (v : Word) : (s.writeReg r v).halted = s.halted := rfl

@[simp] theorem State.writeReg_dmem (s : State) (r : Reg) (v : Word) : (s.writeReg r v).dmem = s.dmem := rfl

@[simp] theorem State.writeReg_imem (s : State) (r : Reg) (v : Word) : (s.writeReg r v).imem = s.imem := rfl

@[simp] theorem State.writeReg_iicImplemented (s : State) (r : Reg) (v : Word) : (s.writeReg r v).iicImplemented = s.iicImplemented := rfl

/-! ### storeWord -/

@[simp] theorem State.storeWord_regs (s : State) (a v : Word) : (s.storeWord a v).regs = s.regs := rfl

@[simp] theorem State.storeWord_pc (s : State) (a v : Word) : (s.storeWord a v).pc = s.pc := rfl

@[simp] theorem State.storeWord_iic (s : State) (a v : Word) : (s.storeWord a v).iic = s.iic := rfl

@[simp] theorem State.storeWord_epc (s : State) (a v : Word) : (s.storeWord a v).epc = s.epc := rfl

@[simp] theorem State.storeWord_halted (s : State) (a v : Word) : (s.storeWord a v).halted = s.halted := rfl

@[simp] theorem State.storeWord_dmem (s : State) (a v : Word) : (s.storeWord a v).dmem = s.dmem.write a v := rfl

@[simp] theorem State.storeWord_imem (s : State) (a v : Word) : (s.storeWord a v).imem = s.imem := rfl

@[simp] theorem State.storeWord_iicImplemented (s : State) (a v : Word) : (s.storeWord a v).iicImplemented = s.iicImplemented := rfl

@[simp] theorem State.storeWord_readReg (s : State) (a v : Word) (q : Reg) : (s.storeWord a v).readReg q = s.readReg q := rfl

/-! ### placeInstruction -/

@[simp] theorem State.placeInstruction_regs (s : State) (a w : Word) : (s.placeInstruction a w).regs = s.regs := rfl

@[simp] theorem State.placeInstruction_pc (s : State) (a w : Word) : (s.placeInstruction a w).pc = s.pc := rfl

@[simp] theorem State.placeInstruction_iic (s : State) (a w : Word) : (s.placeInstruction a w).iic = s.iic := rfl

@[simp] theorem State.placeInstruction_epc (s : State) (a w : Word) : (s.placeInstruction a w).epc = s.epc := rfl

@[simp] theorem State.placeInstruction_halted (s : State) (a w : Word) : (s.placeInstruction a w).halted = s.halted := rfl

@[simp] theorem State.placeInstruction_dmem (s : State) (a w : Word) : (s.placeInstruction a w).dmem = s.dmem := rfl

@[simp] theorem State.placeInstruction_imem (s : State) (a w : Word) : (s.placeInstruction a w).imem = s.imem.write a w := rfl

@[simp] theorem State.placeInstruction_iicImplemented (s : State) (a w : Word) : (s.placeInstruction a w).iicImplemented = s.iicImplemented := rfl

@[simp] theorem State.placeInstruction_readReg (s : State) (a w : Word) (q : Reg) : (s.placeInstruction a w).readReg q = s.readReg q := rfl

/-! ### setPc -/

@[simp] theorem State.setPc_regs (s : State) (a : Word) : (s.setPc a).regs = s.regs := rfl

@[simp] theorem State.setPc_pc (s : State) (a : Word) : (s.setPc a).pc = a := rfl

@[simp] theorem State.setPc_iic (s : State) (a : Word) : (s.setPc a).iic = s.iic := rfl

@[simp] theorem State.setPc_epc (s : State) (a : Word) : (s.setPc a).epc = s.epc := rfl

@[simp] theorem State.setPc_halted (s : State) (a : Word) : (s.setPc a).halted = s.halted := rfl

@[simp] theorem State.setPc_dmem (s : State) (a : Word) : (s.setPc a).dmem = s.dmem := rfl

@[simp] theorem State.setPc_imem (s : State) (a : Word) : (s.setPc a).imem = s.imem := rfl

@[simp] theorem State.setPc_iicImplemented (s : State) (a : Word) : (s.setPc a).iicImplemented = s.iicImplemented := rfl

@[simp] theorem State.setPc_readReg (s : State) (a : Word) (q : Reg) : (s.setPc a).readReg q = s.readReg q := rfl

/-! ### advance -/

@[simp] theorem State.advance_regs (s : State) : s.advance.regs = s.regs := rfl

@[simp] theorem State.advance_pc (s : State) : s.advance.pc = s.pc + 1#16 := rfl

@[simp] theorem State.advance_iic (s : State) : s.advance.iic = s.iic := rfl

@[simp] theorem State.advance_epc (s : State) : s.advance.epc = s.epc := rfl

@[simp] theorem State.advance_halted (s : State) : s.advance.halted = s.halted := rfl

@[simp] theorem State.advance_dmem (s : State) : s.advance.dmem = s.dmem := rfl

@[simp] theorem State.advance_imem (s : State) : s.advance.imem = s.imem := rfl

@[simp] theorem State.advance_iicImplemented (s : State) : s.advance.iicImplemented = s.iicImplemented := rfl

@[simp] theorem State.advance_readReg (s : State) (q : Reg) : s.advance.readReg q = s.readReg q := rfl

/-! ### setIic -/

@[simp] theorem State.setIic_regs (s : State) (v : Word) : (s.setIic v).regs = s.regs := rfl

@[simp] theorem State.setIic_pc (s : State) (v : Word) : (s.setIic v).pc = s.pc := rfl

@[simp] theorem State.setIic_iic (s : State) (v : Word) : (s.setIic v).iic = v := rfl

@[simp] theorem State.setIic_epc (s : State) (v : Word) : (s.setIic v).epc = s.epc := rfl

@[simp] theorem State.setIic_halted (s : State) (v : Word) : (s.setIic v).halted = s.halted := rfl

@[simp] theorem State.setIic_dmem (s : State) (v : Word) : (s.setIic v).dmem = s.dmem := rfl

@[simp] theorem State.setIic_imem (s : State) (v : Word) : (s.setIic v).imem = s.imem := rfl

@[simp] theorem State.setIic_iicImplemented (s : State) (v : Word) : (s.setIic v).iicImplemented = s.iicImplemented := rfl

@[simp] theorem State.setIic_readReg (s : State) (v : Word) (q : Reg) : (s.setIic v).readReg q = s.readReg q := rfl

/-! ### halt -/

@[simp] theorem State.halt_regs (s : State) : s.halt.regs = s.regs := rfl

@[simp] theorem State.halt_pc (s : State) : s.halt.pc = s.pc := rfl

@[simp] theorem State.halt_iic (s : State) : s.halt.iic = s.iic := rfl

@[simp] theorem State.halt_epc (s : State) : s.halt.epc = s.epc := rfl

@[simp] theorem State.halt_halted (s : State) : s.halt.halted = true := rfl

@[simp] theorem State.halt_dmem (s : State) : s.halt.dmem = s.dmem := rfl

@[simp] theorem State.halt_imem (s : State) : s.halt.imem = s.imem := rfl

@[simp] theorem State.halt_iicImplemented (s : State) : s.halt.iicImplemented = s.iicImplemented := rfl

@[simp] theorem State.halt_readReg (s : State) (q : Reg) : s.halt.readReg q = s.readReg q := rfl

/-! ### takeInterrupt -/

@[simp] theorem State.takeInterrupt_regs (s : State) : s.takeInterrupt.regs = s.regs := rfl

@[simp] theorem State.takeInterrupt_pc (s : State) : s.takeInterrupt.pc = interruptVector := rfl

@[simp] theorem State.takeInterrupt_iic (s : State) : s.takeInterrupt.iic = s.iic := rfl

@[simp] theorem State.takeInterrupt_epc (s : State) : s.takeInterrupt.epc = s.pc := rfl

@[simp] theorem State.takeInterrupt_halted (s : State) : s.takeInterrupt.halted = s.halted := rfl

@[simp] theorem State.takeInterrupt_dmem (s : State) : s.takeInterrupt.dmem = s.dmem := rfl

@[simp] theorem State.takeInterrupt_imem (s : State) : s.takeInterrupt.imem = s.imem := rfl

@[simp] theorem State.takeInterrupt_iicImplemented (s : State) : s.takeInterrupt.iicImplemented = s.iicImplemented := rfl

@[simp] theorem State.takeInterrupt_readReg (s : State) (q : Reg) : s.takeInterrupt.readReg q = s.readReg q := rfl

/-! ### returnFromInterrupt -/

@[simp] theorem State.returnFromInterrupt_regs (s : State) : s.returnFromInterrupt.regs = s.regs := rfl

@[simp] theorem State.returnFromInterrupt_pc (s : State) : s.returnFromInterrupt.pc = s.epc := rfl

@[simp] theorem State.returnFromInterrupt_iic (s : State) : s.returnFromInterrupt.iic = s.iic := rfl

@[simp] theorem State.returnFromInterrupt_epc (s : State) : s.returnFromInterrupt.epc = s.epc := rfl

@[simp] theorem State.returnFromInterrupt_halted (s : State) : s.returnFromInterrupt.halted = s.halted := rfl

@[simp] theorem State.returnFromInterrupt_dmem (s : State) : s.returnFromInterrupt.dmem = s.dmem := rfl

@[simp] theorem State.returnFromInterrupt_imem (s : State) : s.returnFromInterrupt.imem = s.imem := rfl

@[simp] theorem State.returnFromInterrupt_iicImplemented (s : State) : s.returnFromInterrupt.iicImplemented = s.iicImplemented := rfl

@[simp] theorem State.returnFromInterrupt_readReg (s : State) (q : Reg) : s.returnFromInterrupt.readReg q = s.readReg q := rfl

/-! ### loadNextInstruction -/

@[simp] theorem State.loadNextInstruction_regs (s : State) (w : Word) : (s.loadNextInstruction w).regs = s.regs := rfl

@[simp] theorem State.loadNextInstruction_pc (s : State) (w : Word) : (s.loadNextInstruction w).pc = s.pc := rfl

@[simp] theorem State.loadNextInstruction_iic (s : State) (w : Word) : (s.loadNextInstruction w).iic = s.iic := rfl

@[simp] theorem State.loadNextInstruction_epc (s : State) (w : Word) : (s.loadNextInstruction w).epc = s.epc := rfl

@[simp] theorem State.loadNextInstruction_halted (s : State) (w : Word) : (s.loadNextInstruction w).halted = false := rfl

@[simp] theorem State.loadNextInstruction_dmem (s : State) (w : Word) : (s.loadNextInstruction w).dmem = s.dmem := rfl

@[simp] theorem State.loadNextInstruction_imem (s : State) (w : Word) : (s.loadNextInstruction w).imem = s.imem.write s.pc w := rfl

@[simp] theorem State.loadNextInstruction_iicImplemented (s : State) (w : Word) : (s.loadNextInstruction w).iicImplemented = s.iicImplemented := rfl

@[simp] theorem State.loadNextInstruction_readReg (s : State) (w : Word) (q : Reg) : (s.loadNextInstruction w).readReg q = s.readReg q := rfl

/-! ### countIssue: only the counter can change (10_state.md R30) -/

@[simp] theorem State.countIssue_regs (s : State) : s.countIssue.regs = s.regs := by
  unfold State.countIssue; split <;> rfl

@[simp] theorem State.countIssue_pc (s : State) : s.countIssue.pc = s.pc := by
  unfold State.countIssue; split <;> rfl

@[simp] theorem State.countIssue_epc (s : State) : s.countIssue.epc = s.epc := by
  unfold State.countIssue; split <;> rfl

@[simp] theorem State.countIssue_halted (s : State) : s.countIssue.halted = s.halted := by
  unfold State.countIssue; split <;> rfl

@[simp] theorem State.countIssue_dmem (s : State) : s.countIssue.dmem = s.dmem := by
  unfold State.countIssue; split <;> rfl

@[simp] theorem State.countIssue_imem (s : State) : s.countIssue.imem = s.imem := by
  unfold State.countIssue; split <;> rfl

@[simp] theorem State.countIssue_iicImplemented (s : State) : s.countIssue.iicImplemented = s.iicImplemented := by
  unfold State.countIssue; split <;> rfl

@[simp] theorem State.countIssue_readReg (s : State) (q : Reg) : s.countIssue.readReg q = s.readReg q := by
  unfold State.countIssue; split <;> rfl

theorem State.countIssue_iic (s : State) :
    s.countIssue.iic = if s.iicImplemented && s.iic != 0#16 then s.iic - 1#16 else s.iic := by
  unfold State.countIssue; split <;> simp_all

/-- Where nothing is counted, the issue changes nothing (10_state.md R26, 60_exceptions.md R231). -/
theorem State.countIssue_of_not_counting (s : State) (h : s.iicImplemented = false ∨ s.iic = 0#16) :
    s.countIssue = s := by
  unfold State.countIssue; rcases h with h | h <;> simp [h]

/-! ### Registers -/

theorem RegFile.set_self_readReg (s : State) (r : Reg) (v : Word) : (s.writeReg r v).readReg r = v := by
  cases r <;> rfl

theorem State.writeReg_readReg_ne (s : State) (r q : Reg) (v : Word) (h : q ≠ r) :
    (s.writeReg r v).readReg q = s.readReg q := by
  cases r <;> cases q <;> first | rfl | exact absurd rfl h

/-- Reading a register after a write: the word written at that register, as before elsewhere (10_state.md R20, R21). -/
theorem State.writeReg_readReg (s : State) (r q : Reg) (v : Word) :
    (s.writeReg r v).readReg q = if q = r then v else s.readReg q := by
  split
  · subst q; exact RegFile.set_self_readReg s r v
  · exact s.writeReg_readReg_ne r q v ‹_›

/-- Two register files that read the same everywhere are the same. -/
theorem State.regs_eq_of_readReg (s t : State) (h : ∀ r, s.readReg r = t.readReg r) : s.regs = t.regs := by
  have := h .r0; have := h .r1; have := h .r2; have := h .r3
  have := h .r4; have := h .r5; have := h .r6; have := h .r7
  simp only [State.readReg] at *
  cases hs : s.regs; cases ht : t.regs
  simp_all

end Sys2Proof.Machine
end

