-- ==== Sys2Proof/Laws/Ops.lean ====
section
/-! SUPPORT. What each shared operation can do, said once: the ways an instruction ends, fetching, the end of a cycle, and the
step itself. -/

namespace Sys2Proof.Machine

/-! ### The ways an instruction ends -/

theorem finishNoWrite_eq_next {s t : State} : finishNoWrite s = .next t ↔ t = s.advance := by
  simp [finishNoWrite, eq_comm]

theorem finishReg_eq_next {s t : State} {rd : Reg} {v : Word} :
    finishReg s rd v = .next t ↔ t = (s.writeReg rd v).advance := by
  simp [finishReg, eq_comm]

theorem finishJump_eq_next {s t : State} {a : Word} : finishJump s a = .next t ↔ t = s.setPc a := by
  simp [finishJump, eq_comm]

theorem finishJumpAndLink_eq_next {s t : State} {a : Word} :
    finishJumpAndLink s a = .next t ↔ t = (s.writeReg linkReg (s.pc + 1#16)).setPc a := by
  simp [finishJumpAndLink, State.nextSequential, eq_comm]

theorem finishBranch_eq_next {s t : State} {b : Bool} {a : Word} :
    finishBranch s b a = .next t ↔ t = s.setPc (if b then a else s.pc + 1#16) := by
  simp [finishBranch, State.nextSequential, eq_comm]

/-- A load that completes found a word at its address, and wrote it. -/
theorem finishLoad_eq_next {s t : State} {rd : Reg} {a : Word} :
    finishLoad s rd a = .next t ↔ ∃ v, s.dmem.read a = some v ∧ t = (s.writeReg rd v).advance := by
  unfold finishLoad
  cases h : s.dmem.read a with
  | none => simp
  | some v => simp [finishReg_eq_next]

/-- A load stops only where nothing has written the word (U3). -/
theorem finishLoad_of_unwritten {s : State} {rd : Reg} {a : Word} (h : s.dmem.read a = none) :
    finishLoad s rd a = .fault (.unwrittenData a) := by
  simp [finishLoad, h]

/-! ### The instruction cycle -/

/-- A fetch that succeeds: the processor is not halted and the word at the pc decodes to the instruction. -/
theorem fetchInstr_eq_ok {s : State} {i : Instr} :
    fetchInstr s = .ok i ↔ s.halted = false ∧ ∃ w, s.imem.read s.pc = some w ∧ decode w = i := by
  unfold fetchInstr
  cases s.halted <;> cases s.imem.read s.pc <;> simp

/-- A cycle that ends in a next state: the instruction ended in one, and the interrupt was taken from it or not. -/
theorem settleInterrupt_eq_next {fire : Bool} {r : Result} {t : State} :
    settleInterrupt fire r = .next t ↔
      ∃ u, r = .next u ∧ t = if fire && !u.halted then u.takeInterrupt else u := by
  cases r with
  | next u => simp [settleInterrupt, eq_comm (a := t)]
  | fault f => simp [settleInterrupt]
  | refused q => simp [settleInterrupt]

/-- All that a step which answers a next state can have done (10_state.md R30): it fetched a defined word, ran its instruction
with the issue counted, and took the interrupt if the issue took the counter from one to zero and the instruction did not
halt. -/
theorem step_eq_next {s t : State} :
    step s = .next t ↔
      s.halted = false ∧ ∃ w u, s.imem.read s.pc = some w ∧ exec (decode w) s.countIssue = .next u ∧
        t = if s.fires && !u.halted then u.takeInterrupt else u := by
  unfold step
  cases h : fetchInstr s with
  | error f =>
    have : ∀ i, fetchInstr s ≠ .ok i := by simp [h]
    simp only [ne_eq, fetchInstr_eq_ok] at this
    constructor
    · simp
    · rintro ⟨h0, w, u, hw, -, -⟩
      exact absurd ⟨h0, w, hw, rfl⟩ (this _)
  | ok i =>
    obtain ⟨h0, w, hw, hi⟩ := fetchInstr_eq_ok.mp h
    simp [settleInterrupt_eq_next, h0, hw, hi]

end Sys2Proof.Machine
end

