-- ==== Sys2Proof/Laws/PerInstr.lean ====
section
/-! SUPPORT. A fact about every instruction, proved one constructor at a time: its encoded word has the bits that its row of
spec/opcode_table.json fixes ("match" under "mask"), written out here a second time, apart from `encode`. -/

namespace Sys2Proof.Laws

/-- The bits the row fixes: the pair (mask, match) of spec/opcode_table.json. -/
def tableBits (i : Instr) : Word × Word :=
  match i with
  | .halt => (0xF800#16, 0x0000#16)
  | .nop => (0xF800#16, 0x0800#16)
  | .siic _ => (0xF800#16, 0x1000#16)
  | .rti => (0xF800#16, 0x1800#16)
  | .j _ => (0xF800#16, 0x2000#16)
  | .jr _ _ => (0xF800#16, 0x2800#16)
  | .jal _ => (0xF800#16, 0x3000#16)
  | .jalr _ _ => (0xF800#16, 0x3800#16)
  | .addi _ _ _ => (0xF800#16, 0x4000#16)
  | .subi _ _ _ => (0xF800#16, 0x4800#16)
  | .xori _ _ _ => (0xF800#16, 0x5000#16)
  | .andni _ _ _ => (0xF800#16, 0x5800#16)
  | .beqz _ _ => (0xF800#16, 0x6000#16)
  | .bnez _ _ => (0xF800#16, 0x6800#16)
  | .bltz _ _ => (0xF800#16, 0x7000#16)
  | .bgez _ _ => (0xF800#16, 0x7800#16)
  | .st _ _ _ => (0xF800#16, 0x8000#16)
  | .ld _ _ _ => (0xF800#16, 0x8800#16)
  | .slbi _ _ => (0xF800#16, 0x9000#16)
  | .stu _ _ _ => (0xF800#16, 0x9800#16)
  | .roli _ _ _ => (0xF800#16, 0xA000#16)
  | .slli _ _ _ => (0xF800#16, 0xA800#16)
  | .srai _ _ _ => (0xF800#16, 0xB000#16)
  | .srli _ _ _ => (0xF800#16, 0xB800#16)
  | .lbi _ _ => (0xF800#16, 0xC000#16)
  | .btr _ _ => (0xF800#16, 0xC800#16)
  | .rol _ _ _ => (0xF803#16, 0xD000#16)
  | .sll _ _ _ => (0xF803#16, 0xD001#16)
  | .sra _ _ _ => (0xF803#16, 0xD002#16)
  | .srl _ _ _ => (0xF803#16, 0xD003#16)
  | .add _ _ _ => (0xF803#16, 0xD800#16)
  | .sub _ _ _ => (0xF803#16, 0xD801#16)
  | .xor _ _ _ => (0xF803#16, 0xD802#16)
  | .andn _ _ _ => (0xF803#16, 0xD803#16)
  | .seq _ _ _ => (0xF800#16, 0xE000#16)
  | .slt _ _ _ => (0xF800#16, 0xE800#16)
  | .sle _ _ _ => (0xF800#16, 0xF000#16)
  | .sco _ _ _ => (0xF800#16, 0xF800#16)

/-- The encoded word carries the bits its row of the table fixes. -/
def OpcodeBits.Statement (i : Instr) : Prop := encode i &&& (tableBits i).1 = (tableBits i).2

theorem mask_opcode {w : Word} {op : BitVec 5} {bits : Word} (h : opField w = op) (hb : packJ op 0#11 = bits) :
    w &&& 0xF800#16 = bits := by
  subst h hb
  apply BitVec.eq_of_getLsbD_eq
  intro i hi
  rw [packJ_getLsbD]
  interval_cases i <;> simp [opField]

theorem mask_opcode_ext {w : Word} {op : BitVec 5} {ext : BitVec 2} {bits : Word} (h : opField w = op)
    (he : extField w = ext) (hb : packR op 0#3 0#3 0#3 ext = bits) : w &&& 0xF803#16 = bits := by
  subst h he hb
  apply BitVec.eq_of_getLsbD_eq
  intro i hi
  rw [packR_getLsbD]
  interval_cases i <;> simp [opField, extField]

theorem OpcodeBits.halt : OpcodeBits.Statement .halt :=
  mask_opcode (opField_packJ _ _) rfl

theorem OpcodeBits.nop : OpcodeBits.Statement .nop :=
  mask_opcode (opField_packJ _ _) rfl

theorem OpcodeBits.siic (rs : Reg) : OpcodeBits.Statement (.siic rs) :=
  mask_opcode (opField_packI2 _ _ _) rfl

theorem OpcodeBits.rti : OpcodeBits.Statement .rti :=
  mask_opcode (opField_packJ _ _) rfl

theorem OpcodeBits.j (disp : BitVec 11) : OpcodeBits.Statement (.j disp) :=
  mask_opcode (opField_packJ _ _) rfl

theorem OpcodeBits.jr (rs : Reg) (imm : BitVec 8) : OpcodeBits.Statement (.jr rs imm) :=
  mask_opcode (opField_packI2 _ _ _) rfl

theorem OpcodeBits.jal (disp : BitVec 11) : OpcodeBits.Statement (.jal disp) :=
  mask_opcode (opField_packJ _ _) rfl

theorem OpcodeBits.jalr (rs : Reg) (imm : BitVec 8) : OpcodeBits.Statement (.jalr rs imm) :=
  mask_opcode (opField_packI2 _ _ _) rfl

theorem OpcodeBits.addi (rd rs : Reg) (imm : BitVec 5) : OpcodeBits.Statement (.addi rd rs imm) :=
  mask_opcode (opField_packI1 _ _ _ _) rfl

theorem OpcodeBits.subi (rd rs : Reg) (imm : BitVec 5) : OpcodeBits.Statement (.subi rd rs imm) :=
  mask_opcode (opField_packI1 _ _ _ _) rfl

theorem OpcodeBits.xori (rd rs : Reg) (imm : BitVec 5) : OpcodeBits.Statement (.xori rd rs imm) :=
  mask_opcode (opField_packI1 _ _ _ _) rfl

theorem OpcodeBits.andni (rd rs : Reg) (imm : BitVec 5) : OpcodeBits.Statement (.andni rd rs imm) :=
  mask_opcode (opField_packI1 _ _ _ _) rfl

theorem OpcodeBits.beqz (rs : Reg) (imm : BitVec 8) : OpcodeBits.Statement (.beqz rs imm) :=
  mask_opcode (opField_packI2 _ _ _) rfl

theorem OpcodeBits.bnez (rs : Reg) (imm : BitVec 8) : OpcodeBits.Statement (.bnez rs imm) :=
  mask_opcode (opField_packI2 _ _ _) rfl

theorem OpcodeBits.bltz (rs : Reg) (imm : BitVec 8) : OpcodeBits.Statement (.bltz rs imm) :=
  mask_opcode (opField_packI2 _ _ _) rfl

theorem OpcodeBits.bgez (rs : Reg) (imm : BitVec 8) : OpcodeBits.Statement (.bgez rs imm) :=
  mask_opcode (opField_packI2 _ _ _) rfl

theorem OpcodeBits.st (rd rs : Reg) (imm : BitVec 5) : OpcodeBits.Statement (.st rd rs imm) :=
  mask_opcode (opField_packI1 _ _ _ _) rfl

theorem OpcodeBits.ld (rd rs : Reg) (imm : BitVec 5) : OpcodeBits.Statement (.ld rd rs imm) :=
  mask_opcode (opField_packI1 _ _ _ _) rfl

theorem OpcodeBits.slbi (rs : Reg) (imm : BitVec 8) : OpcodeBits.Statement (.slbi rs imm) :=
  mask_opcode (opField_packI2 _ _ _) rfl

theorem OpcodeBits.stu (rd rs : Reg) (imm : BitVec 5) : OpcodeBits.Statement (.stu rd rs imm) :=
  mask_opcode (opField_packI1 _ _ _ _) rfl

theorem OpcodeBits.roli (rd rs : Reg) (imm : BitVec 5) : OpcodeBits.Statement (.roli rd rs imm) :=
  mask_opcode (opField_packI1 _ _ _ _) rfl

theorem OpcodeBits.slli (rd rs : Reg) (imm : BitVec 5) : OpcodeBits.Statement (.slli rd rs imm) :=
  mask_opcode (opField_packI1 _ _ _ _) rfl

theorem OpcodeBits.srai (rd rs : Reg) (imm : BitVec 5) : OpcodeBits.Statement (.srai rd rs imm) :=
  mask_opcode (opField_packI1 _ _ _ _) rfl

theorem OpcodeBits.srli (rd rs : Reg) (imm : BitVec 5) : OpcodeBits.Statement (.srli rd rs imm) :=
  mask_opcode (opField_packI1 _ _ _ _) rfl

theorem OpcodeBits.lbi (rs : Reg) (imm : BitVec 8) : OpcodeBits.Statement (.lbi rs imm) :=
  mask_opcode (opField_packI2 _ _ _) rfl

theorem OpcodeBits.btr (rd rs : Reg) : OpcodeBits.Statement (.btr rd rs) :=
  mask_opcode (opField_packR _ _ _ _ _) rfl

theorem OpcodeBits.rol (rd rs rt : Reg) : OpcodeBits.Statement (.rol rd rs rt) :=
  mask_opcode_ext (opField_packR _ _ _ _ _) (extField_packR _ _ _ _ _) rfl

theorem OpcodeBits.sll (rd rs rt : Reg) : OpcodeBits.Statement (.sll rd rs rt) :=
  mask_opcode_ext (opField_packR _ _ _ _ _) (extField_packR _ _ _ _ _) rfl

theorem OpcodeBits.sra (rd rs rt : Reg) : OpcodeBits.Statement (.sra rd rs rt) :=
  mask_opcode_ext (opField_packR _ _ _ _ _) (extField_packR _ _ _ _ _) rfl

theorem OpcodeBits.srl (rd rs rt : Reg) : OpcodeBits.Statement (.srl rd rs rt) :=
  mask_opcode_ext (opField_packR _ _ _ _ _) (extField_packR _ _ _ _ _) rfl

theorem OpcodeBits.add (rd rs rt : Reg) : OpcodeBits.Statement (.add rd rs rt) :=
  mask_opcode_ext (opField_packR _ _ _ _ _) (extField_packR _ _ _ _ _) rfl

theorem OpcodeBits.sub (rd rs rt : Reg) : OpcodeBits.Statement (.sub rd rs rt) :=
  mask_opcode_ext (opField_packR _ _ _ _ _) (extField_packR _ _ _ _ _) rfl

theorem OpcodeBits.xor (rd rs rt : Reg) : OpcodeBits.Statement (.xor rd rs rt) :=
  mask_opcode_ext (opField_packR _ _ _ _ _) (extField_packR _ _ _ _ _) rfl

theorem OpcodeBits.andn (rd rs rt : Reg) : OpcodeBits.Statement (.andn rd rs rt) :=
  mask_opcode_ext (opField_packR _ _ _ _ _) (extField_packR _ _ _ _ _) rfl

theorem OpcodeBits.seq (rd rs rt : Reg) : OpcodeBits.Statement (.seq rd rs rt) :=
  mask_opcode (opField_packR _ _ _ _ _) rfl

theorem OpcodeBits.slt (rd rs rt : Reg) : OpcodeBits.Statement (.slt rd rs rt) :=
  mask_opcode (opField_packR _ _ _ _ _) rfl

theorem OpcodeBits.sle (rd rs rt : Reg) : OpcodeBits.Statement (.sle rd rs rt) :=
  mask_opcode (opField_packR _ _ _ _ _) rfl

theorem OpcodeBits.sco (rd rs rt : Reg) : OpcodeBits.Statement (.sco rd rs rt) :=
  mask_opcode (opField_packR _ _ _ _ _) rfl

end Sys2Proof.Laws
end

