-- ==== Sys2Proof/Laws/Run.lean ====
section
/-! SUPPORT. Runs, one step at a time, and the instruction a step runs. -/

namespace Sys2Proof.Machine

@[simp] theorem runsTo_zero {s t : State} : RunsTo 0 s t ↔ s = t := by
  show Host.Outcome.next s = .next t ↔ _
  simp

theorem core_run_next {M : Host.Core} {n : Nat} {s u : M.State} (h : M.step s = .next u) :
    M.run (n + 1) s = M.run n u := by
  simp [Host.Core.run, h]

theorem core_run_fault {M : Host.Core} {n : Nat} {s : M.State} {f : M.Fault} (h : M.step s = .fault f) :
    M.run (n + 1) s = .fault f := by
  simp [Host.Core.run, h]

theorem core_run_refused {M : Host.Core} {n : Nat} {s : M.State} {q : M.Refusal} (h : M.step s = .refused q) :
    M.run (n + 1) s = .refused q := by
  simp [Host.Core.run, h]

/-- A run of `n + 1` steps whose first step answers a next state goes on from that state. -/
theorem run_succ_of_next {n : Nat} {s u : State} (h : step s = .next u) :
    Host.Core.run Sys2Proof.core (n + 1) s = Host.Core.run Sys2Proof.core n u :=
  core_run_next (M := Sys2Proof.core) h

/-- A run of `n + 1` steps whose first step stops, stops so. -/
theorem run_succ_of_fault {n : Nat} {s : State} {f : Fault} (h : step s = .fault f) :
    Host.Core.run Sys2Proof.core (n + 1) s = .fault f :=
  core_run_fault (M := Sys2Proof.core) h

theorem run_succ_of_refused {n : Nat} {s : State} {q : Refusal} (h : step s = .refused q) :
    Host.Core.run Sys2Proof.core (n + 1) s = .refused q :=
  core_run_refused (M := Sys2Proof.core) h

/-- A run of `n + 1` steps is a step and then a run of `n`. -/
theorem runsTo_succ {n : Nat} {s t : State} : RunsTo (n + 1) s t ↔ ∃ u, step s = .next u ∧ RunsTo n u t := by
  unfold RunsTo
  cases h : step s with
  | next u => rw [run_succ_of_next h]; simp
  | fault f => rw [run_succ_of_fault h]; simp
  | refused q => rw [run_succ_of_refused h]; simp

theorem nextInstr_eq_some {s : State} {i : Instr} :
    s.nextInstr = some i ↔ s.halted = false ∧ ∃ w, s.imem.read s.pc = some w ∧ decode w = i := by
  rw [← fetchInstr_eq_ok]
  unfold State.nextInstr
  cases fetchInstr s <;> simp

/-- A step whose instruction is known. -/
theorem step_of_nextInstr {s : State} {i : Instr} (h : s.nextInstr = some i) :
    step s = settleInterrupt s.fires (exec i s.countIssue) := by
  rw [nextInstr_eq_some, ← fetchInstr_eq_ok] at h
  simp [step, h]

/-- `withFetchWord` places the word that the next step fetches and runs. -/
theorem withFetchWord_nextInstr (s : State) (w : Nat) (h : w < 2 ^ 16) :
    (s.withFetchWord 16 w).nextInstr = decodeTableWord 16 w := by
  rw [decodeTableWord, if_pos ⟨rfl, h⟩, nextInstr_eq_some]
  exact ⟨rfl, BitVec.ofNat 16 w, by rw [State.withFetchWord, Nat.mod_eq_of_lt h]; simp, rfl⟩

end Sys2Proof.Machine
end

