-- ==== Sys2Proof/Tests/Slice0.lean ====
section
/-! SUPPORT. The model's own tests. The words and the expected values are the spec's (95_test_vectors.md, or the example of the
instruction's rule); a test names its row where that is not plain. Then, for each statement with hypotheses, a concrete case that
meets them. -/

namespace Sys2Proof.Tests

open Sys2Proof.Machine Sys2Proof.Statements

/-! ### Well-formedness: each check refuses an ill-formed term (30_encoding.md R78) -/

theorem test_wellFormed_refuses_roli_16 : (Instr.roli .r2 .r1 0b10000#5).wellFormed = false := by decide
theorem test_wellFormed_refuses_slli_20 : (Instr.slli .r2 .r1 0b10100#5).wellFormed = false := by decide
theorem test_wellFormed_refuses_srai_31 : (Instr.srai .r2 .r1 0b11111#5).wellFormed = false := by decide
theorem test_wellFormed_refuses_srli_16 : (Instr.srli .r2 .r1 0b10000#5).wellFormed = false := by decide
theorem test_wellFormed_accepts_slli_15 : (Instr.slli .r2 .r1 0b01111#5).wellFormed = true := by decide

/-! ### Decoding, one word of the spec for every instruction -/

theorem test_decode_halt : decode 0b00000_111_111_11111#16 = .halt := by decide
theorem test_decode_nop : decode 0b00001_111_111_11111#16 = .nop := by decide
theorem test_decode_siic : decode 0b00010_111_101_01011#16 = .siic .r7 := by decide
theorem test_decode_rti : decode 0b00011_111_111_11111#16 = .rti := by decide
theorem test_decode_j : decode 0b00100_100_000_00000#16 = .j 0b10000000000#11 := by decide
theorem test_decode_jr : decode 0b00101_011_000_00000#16 = .jr .r3 0#8 := by decide
theorem test_decode_jal : decode 0b00110_111_111_11101#16 = .jal 0b11111111101#11 := by decide
theorem test_decode_jalr : decode 0b00111_010_111_11110#16 = .jalr .r2 0xFE#8 := by decide
theorem test_decode_addi : decode 0b01000_001_010_00101#16 = .addi .r2 .r1 5#5 := by decide
theorem test_decode_subi : decode 0b01001_001_010_11111#16 = .subi .r2 .r1 0b11111#5 := by decide
theorem test_decode_xori : decode 0b01010_001_010_10101#16 = .xori .r2 .r1 21#5 := by decide
theorem test_decode_andni : decode 0b01011_001_010_00001#16 = .andni .r2 .r1 1#5 := by decide
theorem test_decode_beqz : decode 0b01100_001_000_00100#16 = .beqz .r1 4#8 := by decide
theorem test_decode_bnez : decode 0b01101_001_111_11101#16 = .bnez .r1 0xFD#8 := by decide
theorem test_decode_bltz : decode 0b01110_001_000_01010#16 = .bltz .r1 10#8 := by decide
theorem test_decode_bgez : decode 0b01111_001_100_00000#16 = .bgez .r1 0x80#8 := by decide
theorem test_decode_st : decode 0b10000_001_010_00011#16 = .st .r2 .r1 3#5 := by decide
theorem test_decode_ld : decode 0b10001_101_011_11111#16 = .ld .r3 .r5 0b11111#5 := by decide
theorem test_decode_slbi : decode 0b10010_011_110_11100#16 = .slbi .r3 0xDC#8 := by decide
theorem test_decode_stu : decode 0b10011_101_010_00001#16 = .stu .r2 .r5 1#5 := by decide
theorem test_decode_roli : decode 0b10100_001_010_01111#16 = .roli .r2 .r1 15#5 := by decide
theorem test_decode_slli : decode 0b10101_001_010_10100#16 = .slli .r2 .r1 0b10100#5 := by decide
theorem test_decode_srai : decode 0b10110_001_010_00001#16 = .srai .r2 .r1 1#5 := by decide
theorem test_decode_srli : decode 0b10111_001_010_01111#16 = .srli .r2 .r1 15#5 := by decide
theorem test_decode_lbi : decode 0b11000_011_111_11110#16 = .lbi .r3 0xFE#8 := by decide
theorem test_decode_btr : decode 0b11001_001_111_01111#16 = .btr .r3 .r1 := by decide
theorem test_decode_rol : decode 0b11010_001_010_01100#16 = .rol .r3 .r1 .r2 := by decide
theorem test_decode_sll : decode 0b11010_001_010_01101#16 = .sll .r3 .r1 .r2 := by decide
theorem test_decode_sra : decode 0b11010_001_010_01110#16 = .sra .r3 .r1 .r2 := by decide
theorem test_decode_srl : decode 0b11010_001_010_01111#16 = .srl .r3 .r1 .r2 := by decide
theorem test_decode_add : decode 0b11011_010_001_01000#16 = .add .r2 .r2 .r1 := by decide
theorem test_decode_sub : decode 0b11011_011_100_00001#16 = .sub .r0 .r3 .r4 := by decide
theorem test_decode_xor : decode 0b11011_001_010_01110#16 = .xor .r3 .r1 .r2 := by decide
theorem test_decode_andn : decode 0b11011_001_010_01111#16 = .andn .r3 .r1 .r2 := by decide
theorem test_decode_seq : decode 0b11100_001_011_11000#16 = .seq .r6 .r1 .r3 := by decide
theorem test_decode_slt : decode 0b11101_001_010_01100#16 = .slt .r3 .r1 .r2 := by decide
theorem test_decode_sle : decode 0b11110_001_010_01100#16 = .sle .r3 .r1 .r2 := by decide
theorem test_decode_sco : decode 0b11111_000_010_10000#16 = .sco .r4 .r0 .r2 := by decide

theorem test_decodeTableWord_one_word : decodeTableWord 16 0x2005 = some (.j 5#11) := by decide
theorem test_decodeTableWord_other_width : decodeTableWord 32 0x2005 = none := by decide

/-- The words of program P2 (95_test_vectors.md), encoded from its listing. -/
theorem test_encode_P2 :
    [Instr.lbi .r1 0x12#8, .slbi .r1 0x34#8, .lbi .r5 0x40#8, .st .r1 .r5 0#5, .btr .r2 .r1, .stu .r2 .r5 1#5,
      .ld .r3 .r5 0b11111#5, .ld .r4 .r5 0#5, .sub .r0 .r3 .r4, .seq .r6 .r1 .r3, .halt].map encode =
    [0xC112#16, 0x9134#16, 0xC540#16, 0x8520#16, 0xC908#16, 0x9D41#16, 0x8D7F#16, 0x8D80#16, 0xDB81#16, 0xE178#16,
      0x0000#16] := by decide

/-! ### One instruction at a time, fetched, decoded and run -/

/-- The state of 95_test_vectors.md, part 2: at `pc`, with R1 and R2 as given, the other registers 0, IIC 0, the extension
present, and one data word. -/
def bench (pc x1 x2 : Word) (cell : WordCell := (0, 0#16)) : State :=
  { State.reset with pc := pc, regs := { RegFile.atReset with r1 := x1, r2 := x2 }, dmem := ⟨[cell]⟩ }

/-- The state after the next step; the same state where the step stops. -/
def next (s : State) : State :=
  match step s with
  | .next t => t
  | .fault _ => s
  | .refused _ => s

/-- The state after one step that fetches the word `w`. -/
def after (s : State) (w : Nat) : State := next (s.withFetchWord 16 w)

/-- The step stops, and why. -/
def stop (s : State) : Option Fault :=
  match step s with
  | .next _ => none
  | .fault f => some f
  | .refused _ => none

theorem test_addi_wraps_rd_is_rs : (after (bench 0x10 0x7FFF 0x0000) 0x412F).readReg .r1 = 0x800E := by decide
theorem test_addi_minus_one : (after (bench 0x10 0x0000 0x0000) 0x415F).readReg .r2 = 0xFFFF := by decide
theorem test_subi_is_reverse : (after (bench 0x10 0x0003 0x0000) 0x4945).readReg .r2 = 0x0002 := by decide
theorem test_subi_minus_one_complements : (after (bench 0x10 0x1234 0x0000) 0x495F).readReg .r2 = 0xEDCB := by decide
theorem test_xori_zero_extends : (after (bench 0x10 0xFFFF 0x0000) 0x515F).readReg .r2 = 0xFFE0 := by decide
theorem test_xori_21 : (after (bench 0x10 0x00FF 0x0000) 0x5155).readReg .r2 = 0x00EA := by decide
theorem test_andni_clears_low_bits : (after (bench 0x10 0xFFFF 0x0000) 0x595F).readReg .r2 = 0xFFE0 := by decide
theorem test_andni_1 : (after (bench 0x10 0x0007 0x0000) 0x5941).readReg .r2 = 0x0006 := by decide
theorem test_roli_15 : (after (bench 0x10 0x8001 0x0000) 0xA14F).readReg .r2 = 0xC000 := by decide
theorem test_roli_ignores_bit_4 : (after (bench 0x10 0x1234 0x0000) 0xA150).readReg .r2 = 0x1234 := by decide
theorem test_slli_ignores_bit_4 : (after (bench 0x10 0x1234 0x0000) 0xA954).readReg .r2 = 0x2340 := by decide
theorem test_slli_15 : (after (bench 0x10 0xFFFF 0x0000) 0xA94F).readReg .r2 = 0x8000 := by decide
theorem test_srai_4 : (after (bench 0x10 0x8234 0x0000) 0xB144).readReg .r2 = 0xF823 := by decide
theorem test_srai_15_positive : (after (bench 0x10 0x7FFF 0x0000) 0xB14F).readReg .r2 = 0x0000 := by decide
theorem test_srli_4 : (after (bench 0x10 0x8234 0x0000) 0xB944).readReg .r2 = 0x0823 := by decide
theorem test_srli_15 : (after (bench 0x10 0x8000 0x0000) 0xB94F).readReg .r2 = 0x0001 := by decide
theorem test_btr : (after (bench 0x10 0x1234 0x0000) 0xC9EF).readReg .r3 = 0x2C48 := by decide
theorem test_btr_FFFE : (after (bench 0x10 0xFFFE 0x0000) 0xC90C).readReg .r3 = 0x7FFF := by decide
theorem test_add : (after (bench 0x10 0x1234 0x1111) 0xD94C).readReg .r3 = 0x2345 := by decide
theorem test_add_wraps : (after (bench 0x10 0xFFFF 0x0001) 0xD94C).readReg .r3 = 0x0000 := by decide
theorem test_sub_is_reverse : (after (bench 0x10 0x0003 0x0005) 0xD94D).readReg .r3 = 0x0002 := by decide
theorem test_sub_wraps : (after (bench 0x10 0x8000 0x7FFF) 0xD94D).readReg .r3 = 0xFFFF := by decide
theorem test_xor : (after (bench 0x10 0xFF00 0x0FF0) 0xD94E).readReg .r3 = 0xF0F0 := by decide
theorem test_andn : (after (bench 0x10 0xFFFF 0x0F0F) 0xD94F).readReg .r3 = 0xF0F0 := by decide
theorem test_andn_complements_rt : (after (bench 0x10 0x1234 0x0000) 0xD94F).readReg .r3 = 0x1234 := by decide
theorem test_rol_low_four_bits : (after (bench 0x10 0x8001 0xFFF1) 0xD14C).readReg .r3 = 0x0003 := by decide
theorem test_rol_15 : (after (bench 0x10 0x8234 0x000F) 0xD14C).readReg .r3 = 0x411A := by decide
theorem test_sll_low_four_bits : (after (bench 0x10 0x8001 0xFFF1) 0xD14D).readReg .r3 = 0x0002 := by decide
theorem test_sll_16_is_0 : (after (bench 0x10 0x8234 0x0010) 0xD14D).readReg .r3 = 0x8234 := by decide
theorem test_sra_low_four_bits : (after (bench 0x10 0x8001 0xFFF1) 0xD14E).readReg .r3 = 0xC000 := by decide
theorem test_sra_15 : (after (bench 0x10 0x8234 0x000F) 0xD14E).readReg .r3 = 0xFFFF := by decide
theorem test_srl_low_four_bits : (after (bench 0x10 0x8001 0xFFF1) 0xD14F).readReg .r3 = 0x4000 := by decide
theorem test_srl_15 : (after (bench 0x10 0x8234 0x000F) 0xD14F).readReg .r3 = 0x0001 := by decide
theorem test_seq_equal : (after (bench 0x10 0x0005 0x0005) 0xE14F).readReg .r3 = 0x0001 := by decide
theorem test_seq_unequal : (after (bench 0x10 0x7FFF 0x8000) 0xE14C).readReg .r3 = 0x0000 := by decide
theorem test_slt_over_overflow : (after (bench 0x10 0x8000 0x7FFF) 0xE94C).readReg .r3 = 0x0001 := by decide
theorem test_slt_equal : (after (bench 0x10 0x0005 0x0005) 0xE94C).readReg .r3 = 0x0000 := by decide
theorem test_sle_equal : (after (bench 0x10 0x0005 0x0005) 0xF14C).readReg .r3 = 0x0001 := by decide
theorem test_sle_over_overflow : (after (bench 0x10 0x7FFF 0x8000) 0xF14C).readReg .r3 = 0x0000 := by decide
theorem test_sco_carry : (after (bench 0x10 0xFFFF 0x0001) 0xF94C).readReg .r3 = 0x0001 := by decide
theorem test_sco_is_not_overflow : (after (bench 0x10 0x7FFF 0x0001) 0xF94C).readReg .r3 = 0x0000 := by decide
theorem test_lbi_sign_extends : (after (bench 0x10 0x0000 0x0000) 0xC180).readReg .r1 = 0xFF80 := by decide
theorem test_lbi_127 : (after (bench 0x10 0xFFFF 0x0000) 0xC17F).readReg .r1 = 0x007F := by decide
theorem test_slbi_keeps_low_byte : (after (bench 0x10 0xABCD 0x0000) 0x91FF).readReg .r1 = 0xCDFF := by decide
theorem test_slbi_zero_extends : (after (bench 0x10 0x0000 0x0000) 0x9180).readReg .r1 = 0x0080 := by decide
theorem test_j_wraps : (after (bench 0xFFFF 0x0000 0) 0x2000).pc = 0x0000 := by decide
theorem test_j_back_1024 : (after (bench 0x0010 0x0000 0) 0x2400).pc = 0xFC11 := by decide
theorem test_jr_minus_one : (after { bench 0x10 0 0 with regs := { RegFile.atReset with r3 := 0x0000 } } 0x2BFF).pc = 0xFFFF := by decide
theorem test_jal_links : (after (bench 0x20 0 0) 0x3010).readReg .r7 = 0x0021 ∧ (after (bench 0x20 0 0) 0x3010).pc = 0x0031 := by decide
theorem test_jalr_reads_old_r7 : (after { bench 0x40 0 0 with regs := { RegFile.atReset with r7 := 0x0200 } } 0x3F00).pc = 0x0200 := by decide
theorem test_jalr_links : (after (bench 0x40 0 0x0102) 0x3AFE).pc = 0x0100 ∧ (after (bench 0x40 0 0x0102) 0x3AFE).readReg .r7 = 0x0041 := by decide
theorem test_beqz_taken : (after (bench 0x0010 0x0000 0) 0x6104).pc = 0x0015 := by decide
theorem test_beqz_not_taken : (after (bench 0x0010 0x8000 0) 0x6104).pc = 0x0011 := by decide
theorem test_bnez_taken : (after (bench 0x0010 0x8000 0) 0x69FD).pc = 0x000E := by decide
theorem test_bnez_not_taken : (after (bench 0x0010 0x0000 0) 0x69FD).pc = 0x0011 := by decide
theorem test_bltz_taken : (after (bench 0x0010 0x8000 0) 0x710A).pc = 0x001B := by decide
theorem test_bltz_zero_not_taken : (after (bench 0x0010 0x0000 0) 0x710A).pc = 0x0011 := by decide
theorem test_bgez_taken_wraps : (after (bench 0x0010 0x0000 0) 0x7980).pc = 0xFF91 := by decide
theorem test_bgez_not_taken : (after (bench 0x0010 0xFFFF 0) 0x7980).pc = 0x0011 := by decide
theorem test_st_address_wraps : (after (bench 0x10 0x0005 0x1111) 0x8150).dmem.read 0xFFF5 = some 0x1111 := by decide
theorem test_st_base_and_data_same : (after (bench 0x10 0x0042 0) 0x8120).dmem.read 0x0042 = some 0x0042 := by decide
theorem test_ld : (after (bench 0x10 0x0100 0 (0x0103, 0xCAFE#16)) 0x8943).readReg .r2 = 0xCAFE := by decide
theorem test_ld_unwritten_stops : stop ((bench 0x10 0x0100 0).withFetchWord 16 0x8943) = some (.unwrittenData 0x0103) := by decide
theorem test_stu_stores_old_base : (after (bench 0x10 0x0100 0) 0x9922).dmem.read 0x0102 = some 0x0100 := by decide
theorem test_stu_updates_base : (after (bench 0x10 0x0100 0xAAAA) 0x995F).readReg .r1 = 0x00FF := by decide
theorem test_halt : (after (bench 0xFFFF 0 0) 0x0000).halted = true ∧ (after (bench 0xFFFF 0 0) 0x0000).pc = 0 := by decide
theorem test_halt_is_final : stop (after (bench 0x07 0 0) 0x0000) = some .halted := by decide
theorem test_nop : after (bench 0x03 0 0) 0x0800 = { (bench 0x03 0 0).withFetchWord 16 0x0800 with pc := 0x0004 } := by decide
theorem test_siic_loads : (after (bench 0x10 0x0002 0) 0x1100).iic = 2 := by decide
theorem test_siic_without_extension : (after { bench 0x10 0x0002 0 with iicImplemented := false } 0x1100).iic = 0 := by decide
theorem test_rti : (after { bench 0x03 0 0 with epc := 0x0008 } 0x1800).pc = 0x0008 := by decide
theorem test_rti_without_extension : (after { bench 0x03 0 0 with epc := 0x0008, iicImplemented := false } 0x1800).pc = 0x0004 := by decide

/-! ### The counter and the interrupt (95_test_vectors.md, 2.9) -/

theorem test_interrupt_after_plain_instruction : let t := after { bench 0x05 0 0 with iic := 1 } 0xC209
    t.readReg .r2 = 9 ∧ t.epc = 0x0006 ∧ t.pc = 0x0001 ∧ t.iic = 0 := by decide
theorem test_interrupt_on_taken_branch_saves_target : let t := after { bench 0x06 1 0 with iic := 1 } 0x6201
    t.epc = 0x0008 ∧ t.pc = 0x0001 := by decide
theorem test_halt_at_expiry : let t := after { bench 0x05 0 0 with iic := 1 } 0x0000
    t.halted = true ∧ t.pc = 0x0006 ∧ t.iic = 0 ∧ t.epc = 0 := by decide
theorem test_siic_at_expiry : let t := after { bench 0x06 0 0x0005 with iic := 1 } 0x1200
    t.epc = 0x0007 ∧ t.pc = 0x0001 ∧ t.iic = 5 := by decide
theorem test_siic_disarms : let t := after { bench 0x06 0 0 with iic := 3 } 0x1200
    t.epc = 0 ∧ t.pc = 0x0007 ∧ t.iic = 0 := by decide
theorem test_no_interrupt_without_extension : let t := after { bench 0x05 0 0 with iic := 1, iicImplemented := false } 0xC209
    t.epc = 0 ∧ t.pc = 0x0006 ∧ t.iic = 1 := by decide

/-! ### Reset and stops -/

theorem test_reset_fetches_nothing : stop State.reset = some (.noInstruction 0) := by decide
theorem test_reset_runs_a_placed_word : (after State.reset 0xC105).readReg .r1 = 5 ∧ (after State.reset 0xC105).pc = 1 := by decide

/-! ### Cases that meet the hypotheses of the statements -/

/-- A state at address 0x10 that fetches the word `w`. -/
def ready (w : Nat) (x1 x2 : Word) (cell : WordCell := (0, 0#16)) : State := (bench 0x10 x1 x2 cell).withFetchWord 16 w

/-- The same, with IIC at 1, so that its step fires unless it halts. -/
def armed (w : Nat) (x1 x2 : Word) : State := { ready w x1 x2 with iic := 1#16 }

/-- `step` answers `next`, in every case below. -/
theorem step_eq_next_of_stop {s : State} (h : (match step s with | .next _ => true | _ => false) = true) :
    step s = .next (next s) := by
  unfold next; cases hs : step s <;> simp_all

theorem witness_StepRunsDecodedInstruction_next :
    (ready 0x4145 3 0).halted = false ∧ (ready 0x4145 3 0).imem.read (ready 0x4145 3 0).pc = some 0x4145#16 ∧
    ∃ u, exec (decode 0x4145#16) (counted (ready 0x4145 3 0)) = .next u :=
  ⟨rfl, by decide, _, rfl⟩

theorem witness_StepRunsDecodedInstruction_fires :
    (armed 0x4145 3 0).halted = false ∧ (armed 0x4145 3 0).imem.read (armed 0x4145 3 0).pc = some 0x4145#16 ∧
    (armed 0x4145 3 0).iicImplemented = true ∧ (armed 0x4145 3 0).iic = 1#16 ∧
    ∃ u, exec (decode 0x4145#16) (counted (armed 0x4145 3 0)) = .next u ∧ u.halted = false :=
  ⟨rfl, by decide, rfl, rfl, _, rfl, rfl⟩

theorem witness_StepRunsDecodedInstruction_fault :
    (ready 0x8943 0x100 0).halted = false ∧ (ready 0x8943 0x100 0).imem.read (ready 0x8943 0x100 0).pc = some 0x8943#16 ∧
    exec (decode 0x8943#16) (counted (ready 0x8943 0x100 0)) = .fault (.unwrittenData 0x0103#16) :=
  ⟨rfl, by decide, rfl⟩

theorem witness_NoStepWhenHaltedOrNoInstruction :
    (after (bench 0x07 0 0) 0x0000).halted = true ∧ State.reset.halted = false ∧
    State.reset.imem.read State.reset.pc = none := by decide

theorem witness_EveryInstructionCompletes_ld :
    (bench 0x10 0x100 0 (0x0103, 0xCAFE#16)).dmem.read
      ((bench 0x10 0x100 0 (0x0103, 0xCAFE#16)).effectiveAddress .r1 3#5) ≠ none := by decide

theorem witness_EveryInstructionCompletes_other (s : State) :
    ∀ rd rs imm, Instr.nop = .ld rd rs imm → s.dmem.read (s.effectiveAddress rs imm) ≠ none := by
  intro rd rs imm h; cases h

theorem witness_CallThenReturn : ∃ t, exec (.jal 16#11) (bench 0x20 0 0) = .next t ∧
    ({ t with pc := 0x31#16 } : State).readReg .r7 = t.readReg .r7 :=
  ⟨_, rfl, rfl⟩

theorem witness_ShiftImmediatesIgnoreBitFour :
    Instr.roli ∈ [Instr.roli, Instr.slli, Instr.srai, Instr.srli] ∧ (0b10000#5).toNat % 16 = 0 :=
  ⟨.head _, rfl⟩

theorem witness_LoadReadsOneWord :
    (bench 0x10 0xFFFF 0).dmem.read (wordOf (((bench 0x10 0xFFFF 0).readReg .r1).toNat + (1#5).toInt)) = some 0#16 ∧
    (bench 0x10 0x0000 0).dmem.read (wordOf (((bench 0x10 0x0000 0).readReg .r1).toNat + (0b11111#5).toInt)) = none := by
  decide

theorem witness_OnlyStoresWriteDataMemory :
    storeOf (.st .r2 .r1 3#5) (bench 0x10 0x0100 0xBEEF) = some (0x0103#16, 0xBEEF#16) ∧
    storeOf .nop (bench 0x10 0 0) = none ∧ ∃ t, exec .nop (bench 0x10 0 0) = .next t :=
  ⟨by decide, rfl, _, rfl⟩

/-- ST R2, R1, 3; NOP; LD R4, R1, 3 at address 0x10. -/
def storeNopLoad : State :=
  { bench 0x10 0x0100 0xBEEF with imem := ⟨[(0x10, 0x8143#16), (0x11, 0x0800#16), (0x12, 0x8983#16)]⟩ }

theorem witness_LoadReturnsLatestStore :
    storeNopLoad.nextInstr = some (.st .r2 .r1 3#5) ∧
    storeOf (.st .r2 .r1 3#5) storeNopLoad = some (0x0103#16, 0xBEEF#16) ∧
    step storeNopLoad = .next (next storeNopLoad) ∧
    RunsTo 1 (next storeNopLoad) (next (next storeNopLoad)) ∧ NoStoreFor 1 (next storeNopLoad) 0x0103#16 ∧
    (next (next storeNopLoad)).nextInstr = some (.ld .r4 .r1 3#5) ∧
    (next (next storeNopLoad)).effectiveAddress .r1 3#5 = 0x0103#16 ∧
    step (next (next storeNopLoad)) = .next (next (next (next storeNopLoad))) := by
  refine ⟨by decide, by decide, rfl, rfl, ?_, by decide, by decide, rfl⟩
  intro k hk u hu
  obtain rfl : k = 0 := by omega
  obtain rfl := runsTo_zero.mp hu
  rintro ⟨i, v, hi, hs⟩
  have : (next storeNopLoad).nextInstr = some .nop := by decide
  rw [this] at hi
  cases hi
  cases hs

/-- NOP; LD R4, R1, 3 at address 0x10, with one word defined at 0x0103. -/
def nopLoad : State :=
  { bench 0x10 0x0100 0 (0x0103, 0xCAFE#16) with imem := ⟨[(0x10, 0x0800#16), (0x11, 0x8983#16)]⟩ }

theorem witness_UnstoredWordKeepsItsValue :
    RunsTo 1 nopLoad (next nopLoad) ∧ NoStoreFor 1 nopLoad 0x0103#16 ∧
    (next nopLoad).nextInstr = some (.ld .r4 .r1 3#5) ∧ (next nopLoad).effectiveAddress .r1 3#5 = 0x0103#16 ∧
    step (next nopLoad) = .next (next (next nopLoad)) := by
  refine ⟨rfl, ?_, by decide, by decide, rfl⟩
  intro k hk u hu
  obtain rfl : k = 0 := by omega
  obtain rfl := runsTo_zero.mp hu
  rintro ⟨i, v, hi, hs⟩
  have : nopLoad.nextInstr = some .nop := by decide
  rw [this] at hi
  cases hi
  cases hs

theorem witness_ScoAndAddGiveTheExactSum : Reg.r4 ≠ .r0 ∧ Reg.r4 ≠ .r2 ∧ Reg.r4 ≠ .r5 := by decide

theorem witness_NotAndOrIdioms : Reg.r3 ≠ .r1 ∧ Reg.r3 ≠ .r2 := by decide

theorem witness_RegisterUseIsAsTabled : ∃ t, exec (.add .r3 .r1 .r2) (bench 0x10 3 5) = .next t ∧
    ∀ r, r ∈ (registerUse true (.add .r3 .r1 .r2)).1 →
      ({ bench 0x10 3 5 with regs := { RegFile.atReset with r1 := 3, r2 := 5, r3 := 7 } } : State).readReg r =
        (bench 0x10 3 5).readReg r :=
  ⟨_, rfl, by decide⟩

theorem witness_NextPcIsAsTabled : ∃ t, exec (.beqz .r1 4#8) (bench 0x10 0 0) = .next t := ⟨_, rfl⟩

theorem witness_OnlyHaltHalts :
    step (ready 0x0000 0 0) = .next (next (ready 0x0000 0 0)) ∧ (next (ready 0x0000 0 0)).halted = true ∧
    step (ready 0x0800 0 0) = .next (next (ready 0x0800 0 0)) ∧ (next (ready 0x0800 0 0)).halted = false :=
  ⟨rfl, by decide, rfl, by decide⟩

theorem witness_RunKeepsProgram : RunsTo 1 storeNopLoad (next storeNopLoad) := rfl

theorem witness_StepKeepsCanonicalMemories :
    storeNopLoad.Canonical ∧ step storeNopLoad = .next (next storeNopLoad) :=
  ⟨by decide, rfl⟩

theorem witness_ResetIsCanonical :
    (Memory.mk [(0, 0x2002#16), (1, 0xC601#16), (0xFFFF, 0#16)]).wf = true ∧ (Memory.mk [(0x40, 0x1234#16)]).wf = true := by
  decide

theorem witness_ResetStartsAtAddressZero : (Memory.mk [(0, 0x2002#16)]).read 0x0000#16 = some 0x2002#16 := by decide

theorem witness_EveryIssueCounts :
    step (armed 0x0800 0 0) = .next (next (armed 0x0800 0 0)) ∧
    (∀ rs, (armed 0x0800 0 0).nextInstr ≠ some (.siic rs)) ∧
    step (ready 0x0800 0 0) = .next (next (ready 0x0800 0 0)) ∧
    ∀ rs, (ready 0x0800 0 0).nextInstr ≠ some (.siic rs) := by
  have h1 : (armed 0x0800 0 0).nextInstr = some .nop := by decide
  have h2 : (ready 0x0800 0 0).nextInstr = some .nop := by decide
  exact ⟨rfl, fun rs h => (by rw [h1] at h; cases h), rfl, fun rs h => (by rw [h2] at h; cases h)⟩

theorem witness_EpcWrittenByInterruptAlone :
    step (armed 0x0800 0 0) = .next (next (armed 0x0800 0 0)) ∧
    (next (armed 0x0800 0 0)).epc ≠ (armed 0x0800 0 0).epc :=
  ⟨rfl, by decide⟩

theorem witness_InterruptIsPrecise :
    (armed 0x0800 0 0).iicImplemented = true ∧ (armed 0x0800 0 0).iic = 1#16 ∧
    step { armed 0x0800 0 0 with iic := 0#16 } = .next (next { armed 0x0800 0 0 with iic := 0#16 }) ∧
    step { armed 0x0000 0 0 with iic := 0#16 } = .next (next { armed 0x0000 0 0 with iic := 0#16 }) ∧
    step { armed 0x8943 0x100 0 with iic := 0#16 } = .fault (.unwrittenData 0x0103#16) :=
  ⟨rfl, rfl, rfl, rfl, rfl⟩

theorem witness_ReturnResumesTheProgram :
    (armed 0x2005 0 0).iicImplemented = true ∧ (armed 0x2005 0 0).iic = 1#16 ∧
    (armed 0x2005 0 0).nextInstr ≠ some .halt ∧ step (armed 0x2005 0 0) = .next (next (armed 0x2005 0 0)) :=
  ⟨rfl, rfl, by decide, rfl⟩

theorem witness_HaltWinsAtExpiry :
    (armed 0x0000 0 0).iicImplemented = true ∧ (armed 0x0000 0 0).iic = 1#16 ∧
    (armed 0x0000 0 0).nextInstr = some .halt := by decide

theorem witness_SiicWhileCounting :
    (armed 0x1200 0 5).iicImplemented = true ∧ (armed 0x1200 0 5).nextInstr = some (.siic .r2) ∧
    (armed 0x1200 0 5).iic = 1#16 ∧ (ready 0x1200 0 5).iicImplemented = true ∧
    (ready 0x1200 0 5).nextInstr = some (.siic .r2) ∧ (ready 0x1200 0 5).iic ≠ 1#16 := by decide

/-- SIIC R1; NOP at address 0x10, with the count `n` in R1. -/
def siicNop (n : Word) : State := { bench 0x10 n 0 with imem := ⟨[(0x10, 0x1100#16), (0x11, 0x0800#16)]⟩ }

theorem siicNop_noSiic (n : Word) (h : (next (siicNop n)).nextInstr = some .nop) : NoSiicFor 1 (next (siicNop n)) := by
  intro k hk u hu
  obtain rfl : k = 0 := by omega
  obtain rfl := runsTo_zero.mp hu
  simp [h]

/-- The count reached at the one step (n = 1), not yet reached (2), and never (0). -/
theorem witness_SiicCountsExactly : ∀ n ∈ [1#16, 2#16, 0#16],
    (siicNop n).iicImplemented = true ∧ (siicNop n).iic = 0#16 ∧ (siicNop n).nextInstr = some (.siic .r1) ∧
    step (siicNop n) = .next (next (siicNop n)) ∧ RunsTo 1 (next (siicNop n)) (next (next (siicNop n))) ∧
    NoSiicFor 1 (next (siicNop n)) ∧ (next (next (siicNop n))).halted = false := by
  intro n hn
  simp only [List.mem_cons, List.not_mem_nil, or_false] at hn
  rcases hn with rfl | rfl | rfl <;>
    exact ⟨rfl, rfl, by decide, rfl, rfl, siicNop_noSiic _ (by decide), by decide⟩

theorem witness_WithoutExtensionNoCounter :
    ({ ready 0x1800 0 0 with iicImplemented := false } : State).iicImplemented = false ∧
    step { ready 0x1800 0 0 with iicImplemented := false } = .next (next { ready 0x1800 0 0 with iicImplemented := false }) :=
  ⟨rfl, rfl⟩

/-- A processor without the extension, at a NOP with nothing defined after it. -/
def plainNop : State := { ready 0x0800 0 0 with iicImplemented := false }

theorem witness_ExtensionIsInvisible :
    plainNop.iicImplemented = false ∧ plainNop.iic = 0#16 ∧ NoSiicNoRti plainNop ∧ RunsTo 1 plainNop (next plainNop) ∧
    Host.Core.run Sys2Proof.core 2 plainNop = .fault (.noInstruction 0x0011#16) := by
  refine ⟨rfl, rfl, ?_, rfl, rfl⟩
  intro a w h
  have hm : plainNop.imem.cells = [(0x10, 0x0800#16)] := by decide
  rw [Memory.read, hm] at h
  simp only [lookupCell] at h
  split at h
  · cases h
    have e : decode 0x0800#16 = .nop := by decide
    exact ⟨by decide, fun rs h2 => by rw [e] at h2; cases h2⟩
  · cases h

end Sys2Proof.Tests
end

/-! PROOFS. Which instructions write a memory (20_memory.md R42, R45). Each way an instruction ends leaves both memories as they
stand, so an instruction writes memory only by handing a `storeWord` to its ending, and ST and STU alone do that. -/

namespace Sys2Proof.Proofs

open Sys2Proof.Machine Sys2Proof.Statements

section

/-! ### States with the same memories -/

/-- `t` holds the memories of `s`, as data: stronger than `MemoriesKept`, and keeps the canonical form too. -/
def SameMemories (s t : State) : Prop := t.dmem = s.dmem ∧ t.imem = s.imem

variable {s t : State} {i : Instr} {a v : Word}

@[simp] theorem sameMemories_setIic : SameMemories (s.setIic v) t ↔ SameMemories s t := Iff.rfl
@[simp] theorem sameMemories_halt : SameMemories s.halt t ↔ SameMemories s t := Iff.rfl

theorem SameMemories.memoriesKept (h : SameMemories s t) : MemoriesKept s t := by
  obtain ⟨hd, hi⟩ := h
  intro b
  rw [hd, hi]
  exact ⟨rfl, rfl⟩

/-- The memories of `s` after one store are those of `s` but for the one word (20_memory.md R45). -/
theorem SameMemories.storesOnly (h : SameMemories (s.storeWord a v) t) : StoresOnly s t a v := by
  obtain ⟨hd, hi⟩ := h
  rw [State.storeWord_dmem] at hd
  rw [State.storeWord_imem] at hi
  refine ⟨?_, fun b hb => ?_, fun b => by rw [hi]⟩
  · rw [hd, Memory.read_write_self]
  · rw [hd, Memory.read_write_ne _ _ _ _ hb]

/-! ### The ways an instruction ends keep both memories -/

theorem finishNoWrite_sameMemories (h : finishNoWrite s = .next t) : SameMemories s t := by
  obtain rfl := finishNoWrite_eq_next.mp h
  exact ⟨rfl, rfl⟩

theorem finishReg_sameMemories {rd : Reg} (h : finishReg s rd v = .next t) : SameMemories s t := by
  obtain rfl := finishReg_eq_next.mp h
  exact ⟨rfl, rfl⟩

theorem finishJump_sameMemories (h : finishJump s a = .next t) : SameMemories s t := by
  obtain rfl := finishJump_eq_next.mp h
  exact ⟨rfl, rfl⟩

theorem finishJumpAndLink_sameMemories (h : finishJumpAndLink s a = .next t) : SameMemories s t := by
  obtain rfl := finishJumpAndLink_eq_next.mp h
  exact ⟨rfl, rfl⟩

theorem finishBranch_sameMemories {taken : Bool} (h : finishBranch s taken a = .next t) : SameMemories s t := by
  obtain rfl := finishBranch_eq_next.mp h
  exact ⟨rfl, rfl⟩

theorem finishLoad_sameMemories {rd : Reg} (h : finishLoad s rd a = .next t) : SameMemories s t := by
  obtain ⟨v, -, rfl⟩ := finishLoad_eq_next.mp h
  exact ⟨rfl, rfl⟩

/-- SIIC writes at most IIC (47_interrupt_instructions.md R200). -/
theorem execSiic_sameMemories {rs : Reg} (h : execSiic rs s = .next t) : SameMemories s t := by
  unfold execSiic at h
  split at h
  · exact sameMemories_setIic.mp (finishNoWrite_sameMemories h)
  · exact finishNoWrite_sameMemories h

/-- RTI writes at most the pc (47_interrupt_instructions.md R201). -/
theorem execRti_sameMemories (h : execRti s = .next t) : SameMemories s t := by
  unfold execRti at h
  split at h
  · cases h
    exact ⟨rfl, rfl⟩
  · exact finishNoWrite_sameMemories h

/-! ### What an instruction does to the memories -/

theorem storeOf_eq_some :
    storeOf i s = some (a, v) ↔
      ∃ rd rs imm, (i = .st rd rs imm ∨ i = .stu rd rs imm) ∧ s.effectiveAddress rs imm = a ∧ s.readReg rd = v := by
  cases i <;> simp [storeOf]

/-- An instruction that stores completes, with the memories as that one store leaves them. -/
theorem exec_sameMemories_of_store (h : storeOf i s = some (a, v)) :
    ∃ t, exec i s = .next t ∧ SameMemories (s.storeWord a v) t := by
  obtain ⟨rd, rs, imm, rfl | rfl, rfl, rfl⟩ := storeOf_eq_some.mp h
  case inl => exact ⟨_, rfl, finishNoWrite_sameMemories rfl⟩
  case inr => exact ⟨_, rfl, finishReg_sameMemories rfl⟩

/-- An instruction that does not store leaves both memories as they are. -/
theorem exec_sameMemories_of_no_store (hn : storeOf i s = none) (h : exec i s = .next t) : SameMemories s t := by
  cases i with
  | st | stu => simp [storeOf] at hn
  | ld => exact finishLoad_sameMemories h
  | halt => exact sameMemories_halt.mp (finishNoWrite_sameMemories h)
  | nop => exact finishNoWrite_sameMemories h
  | siic => exact execSiic_sameMemories h
  | rti => exact execRti_sameMemories h
  | j | jr => exact finishJump_sameMemories h
  | jal | jalr => exact finishJumpAndLink_sameMemories h
  | beqz | bnez | bltz | bgez => exact finishBranch_sameMemories h
  | addi | subi | xori | andni | roli | slli | srai | srli | lbi | slbi | btr
  | rol | sll | sra | srl | add | sub | xor | andn | seq | slt | sle | sco => exact finishReg_sameMemories h

end

/-- Settles O25: an instruction either completes as its one store says, or leaves both memories as they are. -/
theorem onlyStoresWriteDataMemory : Obligations.OnlyStoresWriteDataMemory := by
  intro i s
  constructor
  · intro a v hstore
    obtain ⟨t, hexec, hmem⟩ := exec_sameMemories_of_store hstore
    exact ⟨t, hexec, hmem.storesOnly⟩
  · intro hnone t hexec
    exact (exec_sameMemories_of_no_store hnone hexec).memoriesKept

end Sys2Proof.Proofs

/-! PROOFS. The jump through a register (40_jumps.md R101). JR ends as every jump does, by setting the pc alone, and its target,
a sum of words, is the word of the exact sum of the register's unsigned value and the immediate's signed one. -/

namespace Sys2Proof.Proofs

open Sys2Proof.Machine Sys2Proof.Statements

/-! ### Exact sums as words -/

theorem wordOf_add (m n : Int) : wordOf (m + n) = wordOf m + wordOf n := BitVec.ofInt_add m n

theorem wordOf_toNat (v : Word) : wordOf v.toNat = v := by
  rw [wordOf, BitVec.ofInt_natCast, BitVec.ofNat_toNat, BitVec.setWidth_eq]

/-- The extension to a word keeps the signed value (00_scope.md R9). -/
theorem wordOf_toInt_imm8 (imm : BitVec 8) : wordOf imm.toInt = sext8 imm := rfl

/-- The target of JR and JALR in exact integers, modulo 2^16 (40_jumps.md R101, R103). -/
theorem registerTarget_eq_wordOf (s : State) (rs : Reg) (imm : BitVec 8) :
    s.registerTarget rs imm = wordOf ((s.readReg rs).toNat + imm.toInt) := by
  rw [wordOf_add, wordOf_toNat, wordOf_toInt_imm8, State.registerTarget]

/-! ### The effect of a jump -/

/-- Setting the pc is the whole effect of a jump without a link. -/
theorem setPc_goesTo (s : State) (a : Word) : GoesTo s (s.setPc a) a :=
  ⟨s.setPc_pc a, s.setPc_readReg a, ⟨rfl, rfl, rfl, rfl⟩, fun _ => ⟨rfl, rfl⟩⟩

theorem exec_jr (rs : Reg) (imm : BitVec 8) (s : State) :
    exec (.jr rs imm) s = .next (s.setPc (s.registerTarget rs imm)) := rfl

/-! ### The word of JR -/

/-- Under the opcode 00101 the other two fields are the operands of JR (30_encoding.md R64, R72). -/
theorem decode_of_opField_jr {w : Word} (h : opField w = 0b00101#5) : decode w = .jr (rsField w) (imm8Field w) := by
  simp [decode, h]

theorem decode_packI2_jr (rs : Reg) (imm : BitVec 8) : decode (packI2 0b00101#5 rs.bits imm) = .jr rs imm := by
  rw [decode_of_opField_jr (opField_packI2 _ _ _), rsField_packI2, imm8Field_packI2, Reg.ofBits_bits]

/-- Settles O12: JR sets the pc alone, to the word of the exact sum. -/
theorem jumpRegister : Obligations.JumpRegister := by
  intro s rs imm
  refine ⟨decode_packI2_jr rs imm, _, exec_jr rs imm s, ?_⟩
  rw [registerTarget_eq_wordOf]
  exact setPc_goesTo s _

end Sys2Proof.Proofs

/-! PROOFS. The ALU and shift instructions with an immediate (41_alu_immediate.md R110 to R119). Each ends by writing one
register, which is its whole effect; what is left is the value: an exact signed result, or its bits. -/

namespace Sys2Proof.Proofs

open Sys2Proof.Machine Sys2Proof.Statements

/-! ### The effect of an instruction that writes one register -/

/-- `finishReg` writes the register, moves the pc on, and does nothing else (41_alu_immediate.md R118). -/
theorem writeReg_advance_writesOnly (s : State) (rd : Reg) (v : Word) :
    WritesOnly s (s.writeReg rd v).advance rd v := by
  refine ⟨?_, fun r hr => ?_, rfl, ⟨rfl, rfl, rfl, rfl⟩, fun _ => ⟨rfl, rfl⟩⟩
  · rw [State.advance_readReg, RegFile.set_self_readReg]
  · rw [State.advance_readReg, State.writeReg_readReg_ne s rd r v hr]

section

variable {i : Instr} {s : State} {rd : Reg} {v : Word}

theorem completes_writesOnly (h : exec i s = finishReg s rd v) : Completes i s fun t => WritesOnly s t rd v :=
  ⟨_, h, writeReg_advance_writesOnly s rd v⟩

/-- A value that has the property `P`, written to one register. -/
theorem completes_writesOnly_of {P : Word → Prop} (h : exec i s = finishReg s rd v) (hv : P v) :
    Completes i s fun t => ∃ u, WritesOnly s t rd u ∧ P u :=
  ⟨_, h, v, writeReg_advance_writesOnly s rd v, hv⟩

theorem completes_readReg_of {P : Word → Prop} (h : exec i s = finishReg s rd v) (hv : P v) :
    Completes i s fun t => P (t.readReg rd) := by
  obtain ⟨t, hexec, rfl, -⟩ := completes_writesOnly h
  exact ⟨t, hexec, hv⟩

end

/-! ### Words of I-format 1 -/

/-- Where an opcode selects an instruction with the fields of I-format 1 as its operands (30_encoding.md R63, R72), the word
with these operands in its fields decodes to it. -/
theorem decode_packI1 {op : BitVec 5} {mk : Reg → Reg → BitVec 5 → Instr}
    (hop : ∀ w, opField w = op → decode w = mk (rdField1 w) (rsField w) (imm5Field w)) (rd rs : Reg) (imm : BitVec 5) :
    decode (packI1 op rs.bits rd.bits imm) = mk rd rs imm := by
  rw [hop _ (opField_packI1 _ _ _ _), rdField1_packI1, rsField_packI1, imm5Field_packI1, Reg.ofBits_bits, Reg.ofBits_bits]

theorem decode_packI1_addi (rd rs : Reg) (imm : BitVec 5) :
    decode (packI1 0b01000#5 rs.bits rd.bits imm) = .addi rd rs imm :=
  decode_packI1 (fun w h => by simp [decode, h]) rd rs imm

theorem decode_packI1_subi (rd rs : Reg) (imm : BitVec 5) :
    decode (packI1 0b01001#5 rs.bits rd.bits imm) = .subi rd rs imm :=
  decode_packI1 (fun w h => by simp [decode, h]) rd rs imm

theorem decode_packI1_xori (rd rs : Reg) (imm : BitVec 5) :
    decode (packI1 0b01010#5 rs.bits rd.bits imm) = .xori rd rs imm :=
  decode_packI1 (fun w h => by simp [decode, h]) rd rs imm

theorem decode_packI1_andni (rd rs : Reg) (imm : BitVec 5) :
    decode (packI1 0b01011#5 rs.bits rd.bits imm) = .andni rd rs imm :=
  decode_packI1 (fun w h => by simp [decode, h]) rd rs imm

theorem decode_packI1_roli (rd rs : Reg) (imm : BitVec 5) :
    decode (packI1 0b10100#5 rs.bits rd.bits imm) = .roli rd rs imm :=
  decode_packI1 (fun w h => by simp [decode, h]) rd rs imm

theorem decode_packI1_slli (rd rs : Reg) (imm : BitVec 5) :
    decode (packI1 0b10101#5 rs.bits rd.bits imm) = .slli rd rs imm :=
  decode_packI1 (fun w h => by simp [decode, h]) rd rs imm

theorem decode_packI1_srai (rd rs : Reg) (imm : BitVec 5) :
    decode (packI1 0b10110#5 rs.bits rd.bits imm) = .srai rd rs imm :=
  decode_packI1 (fun w h => by simp [decode, h]) rd rs imm

theorem decode_packI1_srli (rd rs : Reg) (imm : BitVec 5) :
    decode (packI1 0b10111#5 rs.bits rd.bits imm) = .srli rd rs imm :=
  decode_packI1 (fun w h => by simp [decode, h]) rd rs imm

/-! ### Shift amounts and shifts, bit by bit (00_scope.md R8) -/

/-- `imm5[3:0]` as a number (41_alu_immediate.md R119). -/
theorem shiftAmountImm_eq_mod (imm : BitVec 5) : shiftAmountImm imm = imm.toNat % 16 := by
  simp [shiftAmountImm]

/-- `x[rt][3:0]` as a number (45_alu_register.md R174). -/
theorem shiftAmountReg_eq_mod (v : Word) : shiftAmountReg v = v.toNat % 16 := by
  simp [shiftAmountReg]

/-- A bit that stays inside the word comes from the left shift, one that leaves bit 15 from the right shift, which brings it
back at bit 0. -/
theorem rotateLeft_isRotl (a : Word) {n : Nat} (hn : n < 16) : IsRotl (rotateLeft a n) a n := by
  intro i hi
  rw [rotateLeft, BitVec.getLsbD_or, BitVec.getLsbD_shiftLeft, BitVec.getLsbD_ushiftRight]
  by_cases hin : i + n < 16
  · have hlost : a.getLsbD (16 - n + (i + n)) = false := BitVec.getLsbD_of_ge _ _ (by omega)
    rw [Nat.mod_eq_of_lt hin, hlost]
    simp [hin]
  · have hmod : (i + n) % 16 = i + n - 16 := by omega
    have hback : 16 - n + (i + n - 16) = i := by omega
    have hlow : i + n - 16 < n := by omega
    rw [hmod, hback]
    simp [hlow]

theorem shiftLeft_isShl (a : Word) (n : Nat) : IsShl (shiftLeft a n) a n := by
  intro i hi
  rw [shiftLeft, BitVec.getLsbD_shiftLeft]
  by_cases hin : i < n <;> simp [hi, hin]

theorem shiftRightLogical_isShrL (a : Word) (n : Nat) : IsShrL (shiftRightLogical a n) a n := by
  intro i _
  rw [shiftRightLogical, BitVec.getLsbD_ushiftRight, Nat.add_comm n i]
  split
  case isTrue => rfl
  case isFalse hout => exact BitVec.getLsbD_of_ge _ _ (by omega)

theorem shiftRightArith_isShrA (a : Word) (n : Nat) : IsShrA (shiftRightArith a n) a n := by
  intro i hi
  rw [shiftRightArith, BitVec.getLsbD_sshiftRight, Nat.add_comm n i]
  by_cases hin : i + n < 16 <;> simp [Nat.not_le.mpr hi, hin, BitVec.msb_eq_getLsbD_last]

/-- The arithmetic right shift divides the signed value by `2 ^ n`, rounded toward minus infinity. -/
theorem toInt_shiftRightArith (a : Word) (n : Nat) : (shiftRightArith a n).toInt = a.toInt.fdiv (2 ^ n) := by
  rw [shiftRightArith, BitVec.toInt_sshiftRight, Int.shiftRight_eq_div_pow,
    Int.fdiv_eq_ediv_of_nonneg _ (Int.pow_nonneg (by decide))]
  norm_cast

/-! ### Immediate operands: the exact signed value, and the bits -/

theorem wordOf_sub (m n : Int) : wordOf (m - n) = wordOf m - wordOf n := by
  rw [Int.sub_eq_add_neg, wordOf_add, BitVec.sub_eq_add_neg]
  exact congrArg (wordOf m + ·) BitVec.ofInt_neg

theorem wordOf_toInt (v : Word) : wordOf v.toInt = v := BitVec.ofInt_toInt

/-- The extension to a word keeps the signed value (00_scope.md R9). -/
theorem wordOf_toInt_imm5 (imm : BitVec 5) : wordOf imm.toInt = sext5 imm := rfl

theorem zext5_getLsbD (imm : BitVec 5) {i : Nat} (hi : i < 16) :
    (zext5 imm).getLsbD i = if i < 5 then imm.getLsbD i else false := by
  rw [zext5, BitVec.getLsbD_setWidth, decide_eq_true hi, Bool.true_and]
  split
  case isTrue => rfl
  case isFalse hout => exact BitVec.getLsbD_of_ge _ _ (by omega)

/-! ### The value each instruction writes -/

section

variable (rd rs : Reg) (imm : BitVec 5) (s : State)

theorem exec_addi : exec (.addi rd rs imm) s = finishReg s rd (wordOf ((s.readReg rs).toInt + imm.toInt)) := by
  rw [wordOf_add, wordOf_toInt, wordOf_toInt_imm5]; rfl

theorem exec_subi : exec (.subi rd rs imm) s = finishReg s rd (wordOf (imm.toInt - (s.readReg rs).toInt)) := by
  rw [wordOf_sub, wordOf_toInt, wordOf_toInt_imm5]; rfl

theorem exec_xori : exec (.xori rd rs imm) s = finishReg s rd (s.readReg rs ^^^ zext5 imm) := rfl

theorem exec_andni : exec (.andni rd rs imm) s = finishReg s rd (s.readReg rs &&& ~~~zext5 imm) := rfl

theorem exec_roli : exec (.roli rd rs imm) s = finishReg s rd (rotateLeft (s.readReg rs) (imm.toNat % 16)) := by
  rw [← shiftAmountImm_eq_mod]; rfl

theorem exec_slli : exec (.slli rd rs imm) s = finishReg s rd (shiftLeft (s.readReg rs) (imm.toNat % 16)) := by
  rw [← shiftAmountImm_eq_mod]; rfl

theorem exec_srai : exec (.srai rd rs imm) s = finishReg s rd (shiftRightArith (s.readReg rs) (imm.toNat % 16)) := by
  rw [← shiftAmountImm_eq_mod]; rfl

theorem exec_srli : exec (.srli rd rs imm) s = finishReg s rd (shiftRightLogical (s.readReg rs) (imm.toNat % 16)) := by
  rw [← shiftAmountImm_eq_mod]; rfl

end

theorem exec_sra (rd rs rt : Reg) (s : State) :
    exec (.sra rd rs rt) s = finishReg s rd (shiftRightArith (s.readReg rs) ((s.readReg rt).toNat % 16)) := by
  rw [← shiftAmountReg_eq_mod]; rfl

/-! ### The statements -/

/-- Settles O17: the amount `imm5[3:0]` is below 16, so the two shifts of the rotate meet without losing a bit. -/
theorem roliRotates : Obligations.RoliRotates := by
  intro s rd rs imm
  have hamount : imm.toNat % 16 < 16 := Nat.mod_lt _ (by decide)
  exact ⟨decode_packI1_roli rd rs imm,
    completes_writesOnly_of (P := (IsRotl · _ _)) (exec_roli rd rs imm s) (rotateLeft_isRotl _ hamount)⟩

/-- Settles O18: each completes with its shift as the one register written, and the bits of the shift are known. -/
theorem slliAndSrli : Obligations.SlliAndSrli := by
  intro s rd rs imm
  exact ⟨decode_packI1_slli rd rs imm, decode_packI1_srli rd rs imm,
    completes_writesOnly_of (P := (IsShl · _ _)) (exec_slli rd rs imm s) (shiftLeft_isShl _ _),
    completes_writesOnly_of (P := (IsShrL · _ _)) (exec_srli rd rs imm s) (shiftRightLogical_isShrL _ _)⟩

/-- Settles O19: the bits that enter from above the word are copies of its top bit, which is bit 15. -/
theorem sraiShiftsTheSignIn : Obligations.SraiShiftsTheSignIn := by
  intro s rd rs imm
  exact ⟨decode_packI1_srai rd rs imm,
    completes_writesOnly_of (P := (IsShrA · _ _)) (exec_srai rd rs imm s) (shiftRightArith_isShrA _ _)⟩

/-- Settles O20: both instructions write the same arithmetic shift, whose signed value is the floor of the quotient. -/
theorem arithmeticShiftsRoundDown : Obligations.ArithmeticShiftsRoundDown := by
  intro s rd rs rt imm
  exact ⟨completes_readReg_of (P := (BitVec.toInt · = _)) (exec_srai rd rs imm s) (toInt_shiftRightArith _ _),
    completes_readReg_of (P := (BitVec.toInt · = _)) (exec_sra rd rs rt s) (toInt_shiftRightArith _ _)⟩

/-- Settles O15: addition and subtraction of words are those of the exact signed values, modulo 2^16. -/
theorem addiAndSubi : Obligations.AddiAndSubi := by
  intro s rd rs imm
  exact ⟨decode_packI1_addi rd rs imm, decode_packI1_subi rd rs imm,
    completes_writesOnly (exec_addi rd rs imm s), completes_writesOnly (exec_subi rd rs imm s)⟩

/-- Settles O16: above bit 4 the zero-extended immediate has no bit to flip or to clear. -/
theorem xoriAndAndni : Obligations.XoriAndAndni := by
  intro s rd rs imm
  refine ⟨decode_packI1_xori rd rs imm, decode_packI1_andni rd rs imm,
    ⟨_, exec_xori rd rs imm s, _, writeReg_advance_writesOnly s rd _, fun i hi => ?xor⟩,
    ⟨_, exec_andni rd rs imm s, _, writeReg_advance_writesOnly s rd _, fun i hi => ?andn⟩⟩
  case xor =>
    rw [BitVec.getLsbD_xor, zext5_getLsbD imm hi]
    split <;> simp
  case andn =>
    rw [BitVec.getLsbD_and, BitVec.getLsbD_not, zext5_getLsbD imm hi]
    split <;> simp [hi]

end Sys2Proof.Proofs

/-! PROOFS. The store and the load (42_load_store.md R130, R131). The effective address, a sum of words, is the word of the exact
sum. ST ends without a register write after its one store; LD ends as the writing of one register, or stops. -/

namespace Sys2Proof.Proofs

open Sys2Proof.Machine Sys2Proof.Statements

/-! ### The words of ST and LD -/

theorem decode_packI1_st (rd rs : Reg) (imm : BitVec 5) :
    decode (packI1 0b10000#5 rs.bits rd.bits imm) = .st rd rs imm :=
  decode_packI1 (fun w h => by simp [decode, h]) rd rs imm

theorem decode_packI1_ld (rd rs : Reg) (imm : BitVec 5) :
    decode (packI1 0b10001#5 rs.bits rd.bits imm) = .ld rd rs imm :=
  decode_packI1 (fun w h => by simp [decode, h]) rd rs imm

/-! ### The address, the store and the load -/

/-- The address of ST, LD and STU in exact integers, modulo 2^16 (20_memory.md R56). -/
theorem effectiveAddress_eq_wordOf (s : State) (rs : Reg) (imm : BitVec 5) :
    s.effectiveAddress rs imm = wordOf ((s.readReg rs).toNat + imm.toInt) := by
  rw [wordOf_add, wordOf_toNat, wordOf_toInt_imm5, State.effectiveAddress]

theorem storeWord_advance_storesOnly (s : State) (a v : Word) : StoresOnly s (s.storeWord a v).advance a v :=
  SameMemories.storesOnly ⟨rfl, rfl⟩

/-- From a written word a load is the writing of one register. -/
theorem finishLoad_of_written {s : State} {rd : Reg} {a v : Word} (h : s.dmem.read a = some v) :
    finishLoad s rd a = finishReg s rd v :=
  finishLoad_eq_next.mpr ⟨v, h, rfl⟩

theorem exec_st (rd rs : Reg) (imm : BitVec 5) (s : State) :
    exec (.st rd rs imm) s = .next (s.storeWord (s.effectiveAddress rs imm) (s.readReg rd)).advance := rfl

theorem exec_ld (rd rs : Reg) (imm : BitVec 5) (s : State) :
    exec (.ld rd rs imm) s = finishLoad s rd (wordOf ((s.readReg rs).toNat + imm.toInt)) := by
  rw [← effectiveAddress_eq_wordOf]; rfl

/-! ### The statements -/

/-- Settles O22: ST completes with its one store and the pc moved on, and neither touches a register. -/
theorem storeWritesOneWord : Obligations.StoreWritesOneWord := by
  intro s rd rs imm
  refine ⟨decode_packI1_st rd rs imm, effectiveAddress_eq_wordOf s rs imm, _, exec_st rd rs imm s,
    storeWord_advance_storesOnly s _ _, fun r => ?regs, rfl, rfl, rfl, rfl, rfl⟩
  case regs => rw [State.advance_readReg, State.storeWord_readReg]

/-- Settles O23: whether the word at the exact address is written decides between the load and the stop (U3). -/
theorem loadReadsOneWord : Obligations.LoadReadsOneWord := by
  intro s rd rs imm
  refine ⟨decode_packI1_ld rd rs imm, fun v hwritten => ?load, fun hunwritten => ?stop⟩
  case load => exact completes_writesOnly ((exec_ld rd rs imm s).trans (finishLoad_of_written hwritten))
  case stop => exact (exec_ld rd rs imm s).trans (finishLoad_of_unwritten hunwritten)

end Sys2Proof.Proofs

/-! PROOFS. The load-immediate instructions (43_load_immediate.md R140, R141). Each ends by writing one register. SLBI keeps of
the old value the low byte alone, and the low byte that LBI leaves is its immediate, so the pair loads any constant. -/

namespace Sys2Proof.Proofs

open Sys2Proof.Machine Sys2Proof.Statements

/-! ### Words of I-format 2 -/

/-- Where an opcode selects an instruction with the fields of I-format 2 as its operands (30_encoding.md R64, R72), the word
with these operands in its fields decodes to it. -/
theorem decode_packI2 {op : BitVec 5} {mk : Reg → BitVec 8 → Instr}
    (hop : ∀ w, opField w = op → decode w = mk (rsField w) (imm8Field w)) (rs : Reg) (imm : BitVec 8) :
    decode (packI2 op rs.bits imm) = mk rs imm := by
  rw [hop _ (opField_packI2 _ _ _), rsField_packI2, imm8Field_packI2, Reg.ofBits_bits]

theorem decode_packI2_lbi (rs : Reg) (imm : BitVec 8) : decode (packI2 0b11000#5 rs.bits imm) = .lbi rs imm :=
  decode_packI2 (fun w h => by simp [decode, h]) rs imm

theorem decode_packI2_slbi (rs : Reg) (imm : BitVec 8) : decode (packI2 0b10010#5 rs.bits imm) = .slbi rs imm :=
  decode_packI2 (fun w h => by simp [decode, h]) rs imm

/-! ### The bytes of a word -/

/-- Bits 15:8 of the result come from the shift, which brings the low byte there; bits 7:0 from the immediate. -/
theorem shiftLeft_eight_or_zext8 (a : Word) (imm : BitVec 8) :
    shiftLeft a 8 ||| zext8 imm = a.extractLsb' 0 8 ++ imm := by
  apply BitVec.eq_of_getLsbD_eq
  intro i hi
  rw [shiftLeft, zext8, BitVec.getLsbD_or, BitVec.getLsbD_shiftLeft, BitVec.getLsbD_setWidth, BitVec.getLsbD_append,
    BitVec.getLsbD_extractLsb']
  by_cases hlow : i < 8
  case pos => simp [hi, hlow]
  case neg =>
    have himm : imm.getLsbD i = false := BitVec.getLsbD_of_ge _ _ (Nat.not_lt.mp hlow)
    have hbyte : i - 8 < 8 := by omega
    simp [hi, hlow, himm, hbyte]

/-- The sign extension leaves the byte itself in bits 7:0 (00_scope.md R9). -/
theorem sext8_lowByte (imm : BitVec 8) : (sext8 imm).extractLsb' 0 8 = imm := by
  apply BitVec.eq_of_getLsbD_eq
  intro i hi
  have hword : i < 16 := by omega
  rw [sext8, BitVec.getLsbD_extractLsb', BitVec.getLsbD_signExtend]
  simp [hi, hword]

/-! ### The value each instruction writes -/

theorem exec_lbi (rs : Reg) (imm : BitVec 8) (s : State) :
    exec (.lbi rs imm) s = finishReg s rs (wordOf imm.toInt) := rfl

theorem exec_slbi (rs : Reg) (imm : BitVec 8) (s : State) :
    exec (.slbi rs imm) s = finishReg s rs ((s.readReg rs).extractLsb' 0 8 ++ imm) := by
  rw [← shiftLeft_eight_or_zext8]; rfl

/-! ### Two instructions in a row -/

theorem otherRegsKept_trans {s t u : State} {rd : Reg} (hst : OtherRegsKept s t rd) (htu : OtherRegsKept t u rd) :
    OtherRegsKept s u rd :=
  fun r hr => (htu r hr).trans (hst r hr)

/-! ### The statements -/

/-- Settles O28: the value LBI writes does not depend on the register's old one. -/
theorem lbiLoadsSignedByte : Obligations.LbiLoadsSignedByte := by
  intro s rs imm
  exact ⟨decode_packI2_lbi rs imm, completes_writesOnly (exec_lbi rs imm s)⟩

/-- Settles O29: of the sign-extended word that LBI leaves, SLBI moves up the low byte alone, which is the byte `hi`. -/
theorem slbiShiftsTheByteIn : Obligations.SlbiShiftsTheByteIn := by
  intro s rs imm
  refine ⟨decode_packI2_slbi rs imm, completes_writesOnly (exec_slbi rs imm s), fun hi => ?_⟩
  obtain ⟨t, hlbi, hhigh, hst, -⟩ := completes_writesOnly (exec_lbi rs hi s)
  obtain ⟨u, hslbi, hconstant, htu, -⟩ := completes_writesOnly (exec_slbi rs imm t)
  refine ⟨t, hlbi, u, hslbi, ?_, otherRegsKept_trans hst htu⟩
  rw [hconstant, hhigh, wordOf_toInt_imm8, sext8_lowByte]

end Sys2Proof.Proofs

/-! PROOFS. The conditional branches (44_branches.md R150 to R154), and the words the spec writes out. A branch changes the pc
alone, so each of the four is told by its condition: BEQZ and BNEZ ask for zero, BLTZ and BGEZ for the sign bit, and the second
of each pair is taken exactly where the first is not. -/

namespace Sys2Proof.Proofs

open Sys2Proof.Machine Sys2Proof.Statements

/-! ### The words of the branches -/

theorem decode_packI2_beqz (rs : Reg) (imm : BitVec 8) : decode (packI2 0b01100#5 rs.bits imm) = .beqz rs imm :=
  decode_packI2 (fun w h => by simp [decode, h]) rs imm

theorem decode_packI2_bnez (rs : Reg) (imm : BitVec 8) : decode (packI2 0b01101#5 rs.bits imm) = .bnez rs imm :=
  decode_packI2 (fun w h => by simp [decode, h]) rs imm

theorem decode_packI2_bltz (rs : Reg) (imm : BitVec 8) : decode (packI2 0b01110#5 rs.bits imm) = .bltz rs imm :=
  decode_packI2 (fun w h => by simp [decode, h]) rs imm

theorem decode_packI2_bgez (rs : Reg) (imm : BitVec 8) : decode (packI2 0b01111#5 rs.bits imm) = .bgez rs imm :=
  decode_packI2 (fun w h => by simp [decode, h]) rs imm

/-! ### The conditions -/

section

variable (a : Word)

theorem isZero_iff : isZero a = true ↔ a.toNat = 0 := by
  rw [isZero, beq_iff_eq, ← BitVec.toNat_inj, BitVec.toNat_zero]

theorem isNonZero_eq_not_isZero : isNonZero a = !isZero a := rfl

/-- The signed value is below zero exactly where bit 15 is set (00_scope.md R8). -/
theorem isNegative_eq_getLsbD : isNegative a = a.getLsbD 15 := by
  rw [isNegative, ← BitVec.msb_eq_toInt, BitVec.msb_eq_getLsbD_last]

theorem isNonNegative_eq_not_isNegative : isNonNegative a = !isNegative a := by
  rw [isNonNegative, isNegative, ← decide_not, decide_eq_decide]
  exact Int.not_lt.symm

end

/-! ### The target and the effect of a branch -/

/-- The target of a branch in exact integers, modulo 2^16 (44_branches.md R150 to R153). -/
theorem branchTarget_eq_wordOf (s : State) (imm : BitVec 8) :
    s.branchTarget imm = wordOf (s.pc.toNat + 1 + imm.toInt) := by
  rw [wordOf_add, wordOf_add, wordOf_toNat, wordOf_toInt_imm8, State.branchTarget]
  rfl

section

variable {i : Instr} {s : State} {taken : Bool} {imm : BitVec 8} {P : Prop} [Decidable P]

/-- A branch that is taken just where `P` holds: its whole effect is the pc. -/
theorem completes_goesTo_of_taken_iff (h : exec i s = finishBranch s taken (s.branchTarget imm))
    (htaken : taken = true ↔ P) :
    Completes i s fun t => GoesTo s t (if P then wordOf (s.pc.toNat + 1 + imm.toInt) else s.pc + 1#16) := by
  refine ⟨_, h.trans (finishBranch_eq_next.mpr rfl), ?_⟩
  simp only [htaken, branchTarget_eq_wordOf]
  exact setPc_goesTo s _

/-- The complementary branch, taken just where `P` fails. -/
theorem completes_goesTo_of_not_taken_iff (h : exec i s = finishBranch s (!taken) (s.branchTarget imm))
    (htaken : taken = true ↔ P) :
    Completes i s fun t => GoesTo s t (if P then s.pc + 1#16 else wordOf (s.pc.toNat + 1 + imm.toInt)) := by
  have hnot : (!taken) = true ↔ ¬ P := by rw [← htaken, Bool.not_eq_true', Bool.not_eq_true]
  simpa only [ite_not] using completes_goesTo_of_taken_iff h hnot

end

/-! ### How each branch ends -/

section

variable (rs : Reg) (imm : BitVec 8) (s : State)

theorem exec_beqz : exec (.beqz rs imm) s = finishBranch s (isZero (s.readReg rs)) (s.branchTarget imm) := rfl

theorem exec_bnez : exec (.bnez rs imm) s = finishBranch s (!isZero (s.readReg rs)) (s.branchTarget imm) := by
  rw [← isNonZero_eq_not_isZero]; rfl

theorem exec_bltz : exec (.bltz rs imm) s = finishBranch s ((s.readReg rs).getLsbD 15) (s.branchTarget imm) := by
  rw [← isNegative_eq_getLsbD]; rfl

theorem exec_bgez : exec (.bgez rs imm) s = finishBranch s (!(s.readReg rs).getLsbD 15) (s.branchTarget imm) := by
  rw [← isNegative_eq_getLsbD, ← isNonNegative_eq_not_isNegative]; rfl

end

/-! ### The statements -/

/-- Settles O3: eighteen closed words, decoded by evaluation. -/
theorem specWordsDecode : Obligations.SpecWordsDecode := by
  unfold Obligations.SpecWordsDecode
  decide

/-- Settles O30: the test for the zero word decides both branches, in opposite ways. -/
theorem branchOnZero : Obligations.BranchOnZero := by
  intro s rs imm
  have hzero := isZero_iff (s.readReg rs)
  exact ⟨decode_packI2_beqz rs imm, decode_packI2_bnez rs imm,
    completes_goesTo_of_taken_iff (exec_beqz rs imm s) hzero,
    completes_goesTo_of_not_taken_iff (exec_bnez rs imm s) hzero⟩

/-- Settles O31: the sign bit decides both branches, in opposite ways. -/
theorem branchOnSign : Obligations.BranchOnSign := by
  intro s rs imm
  exact ⟨decode_packI2_bltz rs imm, decode_packI2_bgez rs imm,
    completes_goesTo_of_taken_iff (exec_bltz rs imm s) Iff.rfl,
    completes_goesTo_of_not_taken_iff (exec_bgez rs imm s) Iff.rfl⟩

end Sys2Proof.Proofs

/-! PROOFS. The register-register ALU, shift and set instructions (45_alu_register.md R160 to R175). Each ends by writing one
register, and the low bits of its word select it or are ignored. What is left is the value: the bits of a reversal, a rotate, a
shift or a logical operation, an exact signed result, or the truth of a comparison. -/

namespace Sys2Proof.Proofs

open Sys2Proof.Machine Sys2Proof.Statements

/-! ### Words of the R-format -/

/-- Where an opcode and an extension select an instruction with the fields of the R-format as its operands (30_encoding.md R65,
R71, R72), the word with these operands in its fields decodes to it. -/
theorem decode_packR {op : BitVec 5} {ext : BitVec 2} {mk : Reg → Reg → Reg → Instr}
    (hop : ∀ w, opField w = op → extField w = ext → decode w = mk (rdField w) (rsField w) (rtField w))
    (rd rs rt : Reg) : decode (packR op rs.bits rt.bits rd.bits ext) = mk rd rs rt := by
  rw [hop _ (opField_packR _ _ _ _ _) (extField_packR _ _ _ _ _), rdField_packR, rsField_packR, rtField_packR,
    Reg.ofBits_bits, Reg.ofBits_bits, Reg.ofBits_bits]

/-- BTR has no Rt, and its word ignores that field and the extension (30_encoding.md R73). -/
theorem decode_packR_btr (rd rs : Reg) (x : BitVec 3) (y : BitVec 2) :
    decode (packR 0b11001#5 rs.bits x rd.bits y) = .btr rd rs := by
  have hop : ∀ w, opField w = 0b11001#5 → decode w = .btr (rdField w) (rsField w) := fun w h => by simp [decode, h]
  rw [hop _ (opField_packR _ _ _ _ _), rdField_packR, rsField_packR, Reg.ofBits_bits, Reg.ofBits_bits]

section

variable (rd rs rt : Reg)

theorem decode_packR_rol : decode (packR 0b11010#5 rs.bits rt.bits rd.bits 0b00#2) = .rol rd rs rt :=
  decode_packR (fun w hop hext => by simp [decode, hop, hext]) rd rs rt

theorem decode_packR_sll : decode (packR 0b11010#5 rs.bits rt.bits rd.bits 0b01#2) = .sll rd rs rt :=
  decode_packR (fun w hop hext => by simp [decode, hop, hext]) rd rs rt

theorem decode_packR_sra : decode (packR 0b11010#5 rs.bits rt.bits rd.bits 0b10#2) = .sra rd rs rt :=
  decode_packR (fun w hop hext => by simp [decode, hop, hext]) rd rs rt

theorem decode_packR_srl : decode (packR 0b11010#5 rs.bits rt.bits rd.bits 0b11#2) = .srl rd rs rt :=
  decode_packR (fun w hop hext => by simp [decode, hop, hext]) rd rs rt

theorem decode_packR_add : decode (packR 0b11011#5 rs.bits rt.bits rd.bits 0b00#2) = .add rd rs rt :=
  decode_packR (fun w hop hext => by simp [decode, hop, hext]) rd rs rt

theorem decode_packR_sub : decode (packR 0b11011#5 rs.bits rt.bits rd.bits 0b01#2) = .sub rd rs rt :=
  decode_packR (fun w hop hext => by simp [decode, hop, hext]) rd rs rt

theorem decode_packR_xor : decode (packR 0b11011#5 rs.bits rt.bits rd.bits 0b10#2) = .xor rd rs rt :=
  decode_packR (fun w hop hext => by simp [decode, hop, hext]) rd rs rt

theorem decode_packR_andn : decode (packR 0b11011#5 rs.bits rt.bits rd.bits 0b11#2) = .andn rd rs rt :=
  decode_packR (fun w hop hext => by simp [decode, hop, hext]) rd rs rt

/-! The set instructions ignore the extension (30_encoding.md R73, 45_alu_register.md R175). -/

variable (x : BitVec 2)

theorem decode_packR_seq : decode (packR 0b11100#5 rs.bits rt.bits rd.bits x) = .seq rd rs rt :=
  decode_packR (fun w hop _ => by simp [decode, hop]) rd rs rt

theorem decode_packR_slt : decode (packR 0b11101#5 rs.bits rt.bits rd.bits x) = .slt rd rs rt :=
  decode_packR (fun w hop _ => by simp [decode, hop]) rd rs rt

theorem decode_packR_sle : decode (packR 0b11110#5 rs.bits rt.bits rd.bits x) = .sle rd rs rt :=
  decode_packR (fun w hop _ => by simp [decode, hop]) rd rs rt

theorem decode_packR_sco : decode (packR 0b11111#5 rs.bits rt.bits rd.bits x) = .sco rd rs rt :=
  decode_packR (fun w hop _ => by simp [decode, hop]) rd rs rt

end

/-! ### The reversal -/

theorem bitReverse_getLsbD (a : Word) {i : Nat} (hi : i < 16) : (bitReverse a).getLsbD i = a.getLsbD (15 - i) := by
  rw [bitReverse, BitVec.getLsbD_reverse, BitVec.getMsbD_eq_getLsbD, decide_eq_true hi, Bool.true_and, Nat.sub_right_comm]

theorem bitReverse_bitReverse (a : Word) : bitReverse (bitReverse a) = a := BitVec.reverse_reverse_eq

/-! ### The conditions of the set instructions -/

section

variable (a b : Word)

theorem isEqual_iff : isEqual a b = true ↔ a.toNat = b.toNat := by
  rw [isEqual, beq_iff_eq, BitVec.toNat_inj]

theorem isLessSigned_iff : isLessSigned a b = true ↔ a.toInt < b.toInt := decide_eq_true_iff

theorem isLessEqualSigned_iff : isLessEqualSigned a b = true ↔ a.toInt ≤ b.toInt := decide_eq_true_iff

/-- A sum of two words fits 17 bits, so its bit 16 says whether it reaches 2^16. -/
theorem carryOut_eq_getLsbD : carryOut a b = (a.setWidth 17 + b.setWidth 17).getLsbD 16 := by
  have hexact : (a.setWidth 17 + b.setWidth 17).toNat = a.toNat + b.toNat := by
    rw [BitVec.toNat_add, BitVec.toNat_setWidth, BitVec.toNat_setWidth]
    omega
  calc carryOut a b
      = decide (2 ^ 16 ≤ (a.setWidth 17 + b.setWidth 17).toNat) := by rw [hexact]; rfl
    _ = (a.setWidth 17 + b.setWidth 17).msb := (BitVec.msb_eq_decide (a.setWidth 17 + b.setWidth 17)).symm
    _ = (a.setWidth 17 + b.setWidth 17).getLsbD 16 := BitVec.msb_eq_getLsbD_last _

end

/-- A set instruction whose condition is `P` writes 1 where `P` holds and 0 where it fails (45_alu_register.md R175). -/
theorem completes_writesOnly_truthWord {i : Instr} {s : State} {rd : Reg} {b : Bool} {P : Prop} [Decidable P]
    (h : exec i s = finishReg s rd (truthWord b)) (hb : b = true ↔ P) :
    Completes i s fun t => WritesOnly s t rd (if P then 0x0001#16 else 0x0000#16) := by
  have hvalue : truthWord b = if P then 0x0001#16 else 0x0000#16 := by simp only [truthWord, hb]
  exact hvalue ▸ completes_writesOnly h

/-! ### The value each instruction writes -/

section

variable (rd rs rt : Reg) (s : State)

theorem exec_btr : exec (.btr rd rs) s = finishReg s rd (bitReverse (s.readReg rs)) := rfl

theorem exec_rol : exec (.rol rd rs rt) s =
    finishReg s rd (rotateLeft (s.readReg rs) ((s.readReg rt).toNat % 16)) := by
  rw [← shiftAmountReg_eq_mod]; rfl

theorem exec_sll : exec (.sll rd rs rt) s =
    finishReg s rd (shiftLeft (s.readReg rs) ((s.readReg rt).toNat % 16)) := by
  rw [← shiftAmountReg_eq_mod]; rfl

theorem exec_srl : exec (.srl rd rs rt) s =
    finishReg s rd (shiftRightLogical (s.readReg rs) ((s.readReg rt).toNat % 16)) := by
  rw [← shiftAmountReg_eq_mod]; rfl

theorem exec_add : exec (.add rd rs rt) s =
    finishReg s rd (wordOf ((s.readReg rs).toInt + (s.readReg rt).toInt)) := by
  rw [wordOf_add, wordOf_toInt, wordOf_toInt]; rfl

theorem exec_sub : exec (.sub rd rs rt) s =
    finishReg s rd (wordOf ((s.readReg rt).toInt - (s.readReg rs).toInt)) := by
  rw [wordOf_sub, wordOf_toInt, wordOf_toInt]; rfl

theorem exec_xor : exec (.xor rd rs rt) s = finishReg s rd (s.readReg rs ^^^ s.readReg rt) := rfl

theorem exec_andn : exec (.andn rd rs rt) s = finishReg s rd (s.readReg rs &&& ~~~s.readReg rt) := rfl

theorem exec_seq : exec (.seq rd rs rt) s =
    finishReg s rd (truthWord (isEqual (s.readReg rs) (s.readReg rt))) := rfl

theorem exec_slt : exec (.slt rd rs rt) s =
    finishReg s rd (truthWord (isLessSigned (s.readReg rs) (s.readReg rt))) := rfl

theorem exec_sle : exec (.sle rd rs rt) s =
    finishReg s rd (truthWord (isLessEqualSigned (s.readReg rs) (s.readReg rt))) := rfl

theorem exec_sco : exec (.sco rd rs rt) s = finishReg s rd
    (truthWord (((s.readReg rs).setWidth 17 + (s.readReg rt).setWidth 17).getLsbD 16)) := by
  rw [← carryOut_eq_getLsbD]; rfl

end

/-! ### The statements -/

/-- Settles O32: the second BTR reads the register the first one wrote, and a reversal undoes itself. -/
theorem btrReverses : Obligations.BtrReverses := by
  intro s rd rs x y
  obtain ⟨t, hfirst, hst⟩ := completes_writesOnly (exec_btr rd rs s)
  refine ⟨decode_packR_btr rd rs x y, t, hfirst, ⟨_, hst, fun _ hi => bitReverse_getLsbD _ hi⟩, ?twice⟩
  case twice =>
    have ⟨hread, _⟩ := hst
    have hback : bitReverse (t.readReg rd) = s.readReg rs := by rw [hread, bitReverse_bitReverse]
    exact completes_readReg_of (P := (· = s.readReg rs)) (exec_btr rd rd t) hback

/-- Settles O35: the amount `x[rt][3:0]` is below 16, so the two shifts of the rotate meet without losing a bit. -/
theorem rolRotates : Obligations.RolRotates := by
  intro s rd rs rt
  have hamount : (s.readReg rt).toNat % 16 < 16 := Nat.mod_lt _ (by decide)
  exact ⟨decode_packR_rol rd rs rt,
    completes_writesOnly_of (P := (IsRotl · _ _)) (exec_rol rd rs rt s) (rotateLeft_isRotl _ hamount)⟩

/-- Settles O36: each completes with its shift by `x[rt][3:0]` as the one register written. -/
theorem sllAndSrl : Obligations.SllAndSrl := by
  intro s rd rs rt
  exact ⟨decode_packR_sll rd rs rt, decode_packR_srl rd rs rt,
    completes_writesOnly_of (P := (IsShl · _ _)) (exec_sll rd rs rt s) (shiftLeft_isShl _ _),
    completes_writesOnly_of (P := (IsShrL · _ _)) (exec_srl rd rs rt s) (shiftRightLogical_isShrL _ _)⟩

/-- Settles O37: the bits that enter from above the word are copies of its top bit, which is bit 15. -/
theorem sraShiftsTheSignIn : Obligations.SraShiftsTheSignIn := by
  intro s rd rs rt
  exact ⟨decode_packR_sra rd rs rt,
    completes_writesOnly_of (P := (IsShrA · _ _)) (exec_sra rd rs rt s) (shiftRightArith_isShrA _ _)⟩

/-- Settles O33: addition and subtraction of words are those of the exact signed values, modulo 2^16. -/
theorem addAndSub : Obligations.AddAndSub := by
  intro s rd rs rt
  exact ⟨decode_packR_add rd rs rt, decode_packR_sub rd rs rt,
    completes_writesOnly (exec_add rd rs rt s), completes_writesOnly (exec_sub rd rs rt s)⟩

/-- Settles O34: the operations on words act on each bit by itself. -/
theorem xorAndAndn : Obligations.XorAndAndn := by
  intro s rd rs rt
  refine ⟨decode_packR_xor rd rs rt, decode_packR_andn rd rs rt,
    ⟨_, exec_xor rd rs rt s, _, writeReg_advance_writesOnly s rd _, fun i hi => ?xor⟩,
    ⟨_, exec_andn rd rs rt s, _, writeReg_advance_writesOnly s rd _, fun i hi => ?andn⟩⟩
  case xor => exact BitVec.getLsbD_xor
  case andn => rw [BitVec.getLsbD_and, BitVec.getLsbD_not, decide_eq_true hi, Bool.true_and]

/-- Settles O38: two words are equal exactly where their unsigned values are. -/
theorem seqComparesAllBits : Obligations.SeqComparesAllBits := by
  intro s rd rs rt x
  exact ⟨decode_packR_seq rd rs rt x, completes_writesOnly_truthWord (exec_seq rd rs rt s) (isEqual_iff _ _)⟩

/-- Settles O39: the two comparisons are those of the signed values. -/
theorem sltAndSleCompareSigned : Obligations.SltAndSleCompareSigned := by
  intro s rd rs rt x
  exact ⟨decode_packR_slt rd rs rt x, decode_packR_sle rd rs rt x,
    completes_writesOnly_truthWord (exec_slt rd rs rt s) (isLessSigned_iff _ _),
    completes_writesOnly_truthWord (exec_sle rd rs rt s) (isLessEqualSigned_iff _ _)⟩

/-- Settles O40: the carry-out is bit 16 of the 17-bit sum. -/
theorem scoGivesTheCarry : Obligations.ScoGivesTheCarry := by
  intro s rd rs rt x
  exact ⟨decode_packR_sco rd rs rt x, completes_writesOnly_truthWord (exec_sco rd rs rt s) Iff.rfl⟩

end Sys2Proof.Proofs

/-! PROOFS. What every instruction and every step does to the state outside the registers (10_state.md R26 to R33, R30). The
instructions that touch IIC, EPC, the halt state or the extension parameter are few, and the end of a cycle adds at most the
interrupt, so what one step does follows from a case split over the instructions that is made once here. -/

namespace Sys2Proof.Proofs

open Sys2Proof.Machine Sys2Proof.Statements

/-! ### How the special, interrupt and jump instructions and STU end -/

theorem exec_halt (s : State) : exec .halt s = .next s.halt.advance := rfl

theorem exec_nop (s : State) : exec .nop s = .next s.advance := rfl

theorem exec_siic (rs : Reg) (s : State) :
    exec (.siic rs) s = .next (s.setIic (if s.iicImplemented then s.readReg rs else s.iic)).advance := by
  show finishNoWrite (if s.iicImplemented then s.setIic (s.readReg rs) else s) = _
  split <;> rfl

theorem exec_rti (s : State) :
    exec .rti s = .next (s.setPc (if s.iicImplemented then s.epc else s.pc + 1#16)) := by
  show (if s.iicImplemented then _ else finishNoWrite s) = _
  split <;> rfl

theorem exec_j (disp : BitVec 11) (s : State) : exec (.j disp) s = .next (s.setPc (s.jumpTarget disp)) := rfl

theorem exec_jal (disp : BitVec 11) (s : State) : exec (.jal disp) s = finishJumpAndLink s (s.jumpTarget disp) := rfl

theorem exec_jalr (rs : Reg) (imm : BitVec 8) (s : State) :
    exec (.jalr rs imm) s = finishJumpAndLink s (s.registerTarget rs imm) := rfl

theorem exec_stu (rd rs : Reg) (imm : BitVec 5) (s : State) :
    exec (.stu rd rs imm) s =
      finishReg (s.storeWord (s.effectiveAddress rs imm) (s.readReg rd)) rs (s.effectiveAddress rs imm) := rfl

/-! ### IIC, EPC, the halt state and the parameter after an instruction -/

/-- The counter an instruction leaves: SIIC alone loads it (10_state.md R26). -/
def iicAfter (i : Instr) (s : State) : Word :=
  match i with
  | .siic rs => if s.iicImplemented then s.readReg rs else s.iic
  | _ => s.iic

/-- The halt state an instruction leaves: HALT alone sets it (10_state.md R28). -/
def haltedAfter (i : Instr) (s : State) : Bool :=
  match i with
  | .halt => true
  | _ => s.halted

theorem iicAfter_of_ne_siic {i : Instr} (h : ∀ rs, i ≠ .siic rs) (s : State) : iicAfter i s = s.iic := by
  unfold iicAfter
  split
  · exact absurd rfl (h _)
  · rfl

theorem iicAfter_of_not_implemented {s : State} (h : s.iicImplemented = false) (i : Instr) : iicAfter i s = s.iic := by
  unfold iicAfter
  split <;> simp [h]

theorem haltedAfter_eq_true_iff {i : Instr} {s : State} (h : s.halted = false) :
    haltedAfter i s = true ↔ i = .halt := by
  unfold haltedAfter
  split
  · simp
  · simpa [h] using ‹_›

/-- What an instruction that leads from `s` to `t` does to the state besides registers, memories and the pc. -/
structure SpecialsAfter (i : Instr) (s t : State) : Prop where
  epc : t.epc = s.epc
  iicImplemented : t.iicImplemented = s.iicImplemented
  iic : t.iic = iicAfter i s
  halted : t.halted = haltedAfter i s

theorem exec_specialsAfter {i : Instr} {s t : State} (h : exec i s = .next t) : SpecialsAfter i s t := by
  cases i with
  | ld =>
    obtain ⟨v, -, rfl⟩ := finishLoad_eq_next.mp h
    exact ⟨rfl, rfl, rfl, rfl⟩
  | siic =>
    rw [exec_siic] at h
    cases h
    exact ⟨rfl, rfl, rfl, rfl⟩
  | rti =>
    rw [exec_rti] at h
    cases h
    exact ⟨rfl, rfl, rfl, rfl⟩
  | _ =>
    obtain rfl := Host.Outcome.next.inj h
    exact ⟨rfl, rfl, rfl, rfl⟩

/-! ### The memories after an instruction -/

theorem exec_sameMemories {i : Instr} {s t : State} (h : exec i s = .next t) :
    (storeOf i s = none ∧ SameMemories s t) ∨
      ∃ a v, storeOf i s = some (a, v) ∧ SameMemories (s.storeWord a v) t := by
  cases hstore : storeOf i s with
  | none => exact .inl ⟨rfl, exec_sameMemories_of_no_store hstore h⟩
  | some av =>
    obtain ⟨u, hexec, hmem⟩ := exec_sameMemories_of_store hstore
    obtain rfl : u = t := Host.Outcome.next.inj (hexec.symm.trans h)
    exact .inr ⟨_, _, rfl, hmem⟩

/-! ### Counting the issue, and the end of the cycle -/

@[simp] theorem countIssue_effectiveAddress (s : State) (rs : Reg) (imm : BitVec 5) :
    s.countIssue.effectiveAddress rs imm = s.effectiveAddress rs imm := by
  simp only [State.effectiveAddress, State.countIssue_readReg]

@[simp] theorem storeOf_countIssue (i : Instr) (s : State) : storeOf i s.countIssue = storeOf i s := by
  unfold storeOf
  split <;> simp

theorem countIssue_iic_toNat (s : State) :
    s.countIssue.iic.toNat = if s.iicImplemented then s.iic.toNat - 1 else s.iic.toNat := by
  rw [State.countIssue_iic]
  cases s.iicImplemented with
  | false => rfl
  | true =>
    by_cases hzero : s.iic = 0#16
    · simp [hzero]
    · have hpos : 1#16 ≤ s.iic := by bv_omega
      simp [hzero, BitVec.toNat_sub_of_le hpos]

theorem fires_iff {s : State} : s.fires = true ↔ s.iicImplemented = true ∧ s.iic = 1#16 := by
  simp [State.fires]

/-- The end of the cycle, on the state the instruction left (10_state.md R30): the interrupt, if the issue fired and the
instruction did not halt. -/
def settled (fire : Bool) (u : State) : State := if fire && !u.halted then u.takeInterrupt else u

section

variable (fire : Bool) (u : State)

@[simp] theorem settled_readReg (r : Reg) : (settled fire u).readReg r = u.readReg r := by unfold settled; split <;> rfl

@[simp] theorem settled_iic : (settled fire u).iic = u.iic := by unfold settled; split <;> rfl

@[simp] theorem settled_halted : (settled fire u).halted = u.halted := by unfold settled; split <;> rfl

@[simp] theorem settled_dmem : (settled fire u).dmem = u.dmem := by unfold settled; split <;> rfl

@[simp] theorem settled_imem : (settled fire u).imem = u.imem := by unfold settled; split <;> rfl

@[simp] theorem settled_iicImplemented : (settled fire u).iicImplemented = u.iicImplemented := by
  unfold settled; split <;> rfl

@[simp] theorem settled_false : settled false u = u := rfl

theorem settled_true : settled true u = if u.halted then u else u.takeInterrupt := by
  unfold settled; cases u.halted <;> rfl

@[simp] theorem settleInterrupt_false (r : Result) : settleInterrupt false r = r := by cases r <;> rfl

theorem settleInterrupt_next : settleInterrupt fire (.next u) = .next (settled fire u) := rfl

end

/-- HALT wins over the interrupt (60_exceptions.md R219). -/
theorem settled_of_halted {fire : Bool} {u : State} (h : u.halted = true) : settled fire u = u := by
  simp [settled, h]

/-! ### A step -/

section

variable {s t : State} {i : Instr}

/-- A step that completes, by the instruction it ran. -/
theorem step_eq_next_settled (h : step s = .next t) :
    ∃ i u, s.nextInstr = some i ∧ exec i s.countIssue = .next u ∧ t = settled s.fires u := by
  obtain ⟨hhalted, w, u, hw, hexec, rfl⟩ := step_eq_next.mp h
  exact ⟨decode w, u, nextInstr_eq_some.mpr ⟨hhalted, w, hw, rfl⟩, hexec, rfl⟩

theorem step_of_exec {u : State} (hi : s.nextInstr = some i) (hexec : exec i s.countIssue = .next u) :
    step s = .next (settled s.fires u) := by
  rw [step_of_nextInstr hi, hexec, settleInterrupt_next]

/-- A step whose instruction is known, and that completes. -/
theorem exec_of_step (hi : s.nextInstr = some i) (h : step s = .next t) :
    ∃ u, exec i s.countIssue = .next u ∧ t = settled s.fires u := by
  obtain ⟨j, u, hj, hexec, ht⟩ := step_eq_next_settled h
  obtain rfl : i = j := Option.some.inj (hi.symm.trans hj)
  exact ⟨u, hexec, ht⟩

theorem halted_of_nextInstr (hi : s.nextInstr = some i) : s.halted = false := (nextInstr_eq_some.mp hi).1

theorem step_of_fetch_error {f : Fault} (h : fetchInstr s = .error f) : step s = .fault f := by
  simp [step, h]

theorem step_of_halted (h : s.halted = true) : step s = .fault .halted :=
  step_of_fetch_error (by simp [fetchInstr, h])

/-- Where the counter is at rest, or the extension is not there, a step is its instruction alone. -/
theorem step_of_not_counting (hi : s.nextInstr = some i) (h : s.iicImplemented = false ∨ s.iic = 0#16) :
    step s = exec i s := by
  have hquiet : s.fires = false := by rcases h with h | h <;> simp [State.fires, h]
  rw [step_of_nextInstr hi, hquiet, settleInterrupt_false, s.countIssue_of_not_counting h]

theorem step_iicImplemented (h : step s = .next t) : t.iicImplemented = s.iicImplemented := by
  obtain ⟨i, u, -, hexec, rfl⟩ := step_eq_next_settled h
  simp [(exec_specialsAfter hexec).iicImplemented]

theorem step_iic (hi : s.nextInstr = some i) (h : step s = .next t) : t.iic = iicAfter i s.countIssue := by
  obtain ⟨u, hexec, rfl⟩ := exec_of_step hi h
  rw [settled_iic, (exec_specialsAfter hexec).iic]

/-- A step that runs no SIIC counts its issue, and that is all it does to IIC. -/
theorem step_iic_of_not_siic (hn : ∀ rs, s.nextInstr ≠ some (.siic rs)) (h : step s = .next t) :
    t.iic = s.countIssue.iic := by
  obtain ⟨i, _, hi, _⟩ := step_eq_next_settled h
  rw [step_iic hi h, iicAfter_of_ne_siic]
  rintro rs rfl
  exact hn rs hi

/-- Without the extension no step moves the counter (60_exceptions.md R231). -/
theorem step_iic_of_not_implemented (hext : s.iicImplemented = false) (h : step s = .next t) : t.iic = s.iic := by
  obtain ⟨i, -, hi, -⟩ := step_eq_next_settled h
  rw [step_iic hi h, s.countIssue_of_not_counting (.inl hext), iicAfter_of_not_implemented hext]

theorem step_halted_iff (hi : s.nextInstr = some i) (h : step s = .next t) : t.halted = true ↔ i = .halt := by
  obtain ⟨u, hexec, rfl⟩ := exec_of_step hi h
  have hrunning : s.countIssue.halted = false := by simp [halted_of_nextInstr hi]
  rw [settled_halted, (exec_specialsAfter hexec).halted, haltedAfter_eq_true_iff hrunning]

/-- A step that does not take the interrupt keeps EPC (10_state.md R27). -/
theorem step_epc_of_not_fires (hf : s.fires = false) (h : step s = .next t) : t.epc = s.epc := by
  obtain ⟨i, u, -, hexec, rfl⟩ := step_eq_next_settled h
  rw [hf, settled_false, (exec_specialsAfter hexec).epc, State.countIssue_epc]

/-- A step whose issue fires, and that does not halt, goes to the handler. -/
theorem step_pc_of_fires (hf : s.fires = true) (hh : t.halted = false) (h : step s = .next t) :
    t.pc = interruptVector := by
  obtain ⟨i, u, -, -, rfl⟩ := step_eq_next_settled h
  rw [settled_halted] at hh
  simp [hf, settled_true, hh]

/-- The memories after a step: one store if its instruction stores, else as they were. -/
theorem step_sameMemories (hi : s.nextInstr = some i) (h : step s = .next t) :
    (storeOf i s = none ∧ SameMemories s t) ∨
      ∃ a v, storeOf i s = some (a, v) ∧ SameMemories (s.storeWord a v) t := by
  obtain ⟨u, hexec, rfl⟩ := exec_of_step hi h
  simpa [SameMemories] using exec_sameMemories hexec

theorem step_imem (h : step s = .next t) : t.imem = s.imem := by
  obtain ⟨i, -, hi, -⟩ := step_eq_next_settled h
  obtain ⟨-, -, himem⟩ | ⟨a, v, -, -, himem⟩ := step_sameMemories hi h
  · exact himem
  · exact himem

end

/-! ### Runs -/

theorem runsTo_succ_last {n : Nat} {s t : State} :
    RunsTo (n + 1) s t ↔ ∃ u, RunsTo n s u ∧ step u = .next t := by
  induction n generalizing s with
  | zero => simp [runsTo_succ]
  | succ n ih =>
    rw [runsTo_succ]
    simp only [ih, runsTo_succ (n := n)]
    tauto

/-- What holds of the first state of a run, and is kept by each of its steps, holds of the last. -/
theorem runsTo_induction {n : Nat} {s t : State} {P : Nat → State → Prop} (hrun : RunsTo n s t) (zero : P 0 s)
    (succ : ∀ k, k < n → ∀ u v, RunsTo k s u → P k u → step u = .next v → P (k + 1) v) : P n t := by
  induction n generalizing t with
  | zero =>
    obtain rfl := runsTo_zero.mp hrun
    exact zero
  | succ n ih =>
    obtain ⟨u, hu, hstep⟩ := runsTo_succ_last.mp hrun
    exact succ n n.lt_succ_self u t hu (ih hu fun k hk => succ k (Nat.lt_succ_of_lt hk)) hstep

end Sys2Proof.Proofs

/-! PROOFS. The statements about runs: the program image, the canonical form and a data word over any number of steps
(20_memory.md R42, R44, R51), the count after SIIC (60_exceptions.md R213, R214), and a program that does not use the extension
(60_exceptions.md R231). Each is a fact about one step, carried along the run by induction. -/

namespace Sys2Proof.Proofs

open Sys2Proof.Machine Sys2Proof.Statements

/-! ### The program image and the canonical form -/

/-- Settles O46: every step keeps the image and the parameter. -/
theorem runKeepsProgram : Obligations.RunKeepsProgram := by
  intro n s t hrun
  refine runsTo_induction (P := fun _ u => u.imem = s.imem ∧ u.iicImplemented = s.iicImplemented) hrun ⟨rfl, rfl⟩ ?_
  rintro k - u v - ⟨himem, hext⟩ hstep
  exact ⟨(step_imem hstep).trans himem, (step_iicImplemented hstep).trans hext⟩

theorem SameMemories.canonical {s t : State} (h : SameMemories s t) (hs : s.Canonical) : t.Canonical := by
  obtain ⟨hdmem, himem⟩ := h
  rwa [State.Canonical, hdmem, himem]

theorem storeWord_canonical {s : State} (a v : Word) (hs : s.Canonical) : (s.storeWord a v).Canonical := by
  obtain ⟨hdmem, himem⟩ := hs
  exact ⟨Memory.write_wf s.dmem a v hdmem, himem⟩

/-- Settles O47: a step leaves both memories, but for at most one store, and a store keeps the canonical form. -/
theorem stepKeepsCanonicalMemories : Obligations.StepKeepsCanonicalMemories := by
  intro s t hcanonical hstep
  obtain ⟨i, -, hi, -⟩ := step_eq_next_settled hstep
  obtain ⟨-, hmem⟩ | ⟨a, v, -, hmem⟩ := step_sameMemories hi hstep
  case inl => exact hmem.canonical hcanonical
  case inr => exact hmem.canonical (storeWord_canonical a v hcanonical)

/-! ### One data word over a run -/

section

variable {n : Nat} {s t u v : State} {a w : Word} {i : Instr} {rd rs : Reg} {imm : BitVec 5}

/-- A step that does not store to `a` keeps the word there, or that there is none. -/
theorem step_dmem_read_of_not_storesNext (hn : ¬ storesNext s a) (h : step s = .next t) :
    t.dmem.read a = s.dmem.read a := by
  obtain ⟨i, -, hi, -⟩ := step_eq_next_settled h
  obtain ⟨-, hdmem, -⟩ | ⟨b, w, hstore, hdmem, -⟩ := step_sameMemories hi h
  case inl => rw [hdmem]
  case inr =>
    have hne : a ≠ b := by
      rintro rfl
      exact hn ⟨i, w, hi, hstore⟩
    rw [hdmem, State.storeWord_dmem, Memory.read_write_ne _ _ _ _ hne]

theorem step_dmem_read_of_store (hi : s.nextInstr = some i) (hstore : storeOf i s = some (a, w))
    (h : step s = .next t) : t.dmem.read a = some w := by
  obtain ⟨hnone, -⟩ | ⟨b, x, hsome, hdmem, -⟩ := step_sameMemories hi h
  case inl => simp [hstore] at hnone
  case inr =>
    obtain ⟨rfl, rfl⟩ : a = b ∧ w = x := by simpa [hstore] using hsome
    rw [hdmem, State.storeWord_dmem, Memory.read_write_self]

/-- A step that runs LD and completes found the word it leaves in the register. -/
theorem dmem_read_of_step_ld (hi : s.nextInstr = some (.ld rd rs imm)) (h : step s = .next t) :
    s.dmem.read (s.effectiveAddress rs imm) = some (t.readReg rd) := by
  obtain ⟨u, hexec, rfl⟩ := exec_of_step hi h
  obtain ⟨w, hread, rfl⟩ := finishLoad_eq_next.mp hexec
  rw [settled_readReg, State.advance_readReg, RegFile.set_self_readReg, ← hread, State.countIssue_dmem,
    countIssue_effectiveAddress]

theorem runsTo_dmem_read_of_noStoreFor (hrun : RunsTo n s t) (hn : NoStoreFor n s a) :
    t.dmem.read a = s.dmem.read a :=
  runsTo_induction (P := fun _ u => u.dmem.read a = s.dmem.read a) hrun rfl fun k hk u _ hu ih hstep =>
    (step_dmem_read_of_not_storesNext (hn k hk u hu) hstep).trans ih

end

/-- Settles O59: the word stays over the run, and the load after it finds it there. -/
theorem unstoredWordKeepsItsValue : Obligations.UnstoredWordKeepsItsValue := by
  intro n s u a hrun hnostore
  have hkept := runsTo_dmem_read_of_noStoreFor hrun hnostore
  refine ⟨hkept, fun rd rs imm v hload haddr hstep => ?_⟩
  rw [← hkept, ← haddr]
  exact dmem_read_of_step_ld hload hstep

/-- Settles O27: the store leaves `w` at `a`, the run keeps it, and the load finds it. -/
theorem loadReturnsLatestStore : Obligations.LoadReturnsLatestStore := by
  intro n s t u v a w i rd rs imm hi hstore hstep hrun hnostore hload haddr hloadstep
  have hfound : u.dmem.read a = some (v.readReg rd) := haddr ▸ dmem_read_of_step_ld hload hloadstep
  have hstored : u.dmem.read a = some w :=
    (runsTo_dmem_read_of_noStoreFor hrun hnostore).trans (step_dmem_read_of_store hi hstore hstep)
  exact Option.some.inj (hfound.symm.trans hstored)

/-! ### The count after SIIC -/

section

variable {n : Nat} {s t : State}

/-- With the extension, a step without SIIC takes one from the counter, which stops at zero (10_state.md R26). -/
theorem step_iic_toNat (hext : s.iicImplemented = true) (hn : ∀ rs, s.nextInstr ≠ some (.siic rs))
    (h : step s = .next t) : t.iic.toNat = s.iic.toNat - 1 := by
  rw [step_iic_of_not_siic hn h, countIssue_iic_toNat, if_pos hext]

/-- The issue fires just where the counter, as a number, is 1. -/
theorem fires_iff_toNat (hext : s.iicImplemented = true) : s.fires = true ↔ s.iic.toNat = 1 := by
  rw [fires_iff, ← BitVec.toNat_inj]
  simp [hext]

/-- Over a run without SIIC the counter goes down by one each step, and EPC is unwritten until it gets to zero; a counter
that begins at zero never gets there from one. -/
theorem runsTo_iic_epc (hrun : RunsTo n s t) (hext : s.iicImplemented = true) (hn : NoSiicFor n s) :
    t.iic.toNat = s.iic.toNat - n ∧ (n < s.iic.toNat ∨ s.iic.toNat = 0 → t.epc = s.epc) := by
  refine runsTo_induction
    (P := fun k u => u.iic.toNat = s.iic.toNat - k ∧ (k < s.iic.toNat ∨ s.iic.toNat = 0 → u.epc = s.epc))
    hrun ⟨rfl, fun _ => rfl⟩ ?_
  rintro k hk u v hu ⟨hcount, hepc⟩ hstep
  have huext : u.iicImplemented = true := (runKeepsProgram k s u hu).2.trans hext
  have hv := step_iic_toNat huext (hn k hk u hu) hstep
  refine ⟨by omega, fun hrest => ?_⟩
  have hquiet : u.fires = false := by
    rw [← Bool.not_eq_true, fires_iff_toNat huext]
    omega
  rw [step_epc_of_not_fires hquiet hstep]
  exact hepc (by omega)

/-- The step at which the count is reached goes to the handler, unless it halts. -/
theorem runsTo_pc_of_count_reached (hrun : RunsTo (n + 1) s t) (hext : s.iicImplemented = true)
    (hn : NoSiicFor (n + 1) s) (hcount : s.iic.toNat = n + 1) (hrunning : t.halted = false) :
    t.pc = interruptVector := by
  obtain ⟨u, hu, hstep⟩ := runsTo_succ_last.mp hrun
  have huext : u.iicImplemented = true := (runKeepsProgram n s u hu).2.trans hext
  have ⟨hlast, _⟩ := runsTo_iic_epc hu hext fun k hk => hn k (Nat.lt_succ_of_lt hk)
  have hfires : u.fires = true := (fires_iff_toNat huext).mpr (by omega)
  exact step_pc_of_fires hfires hrunning hstep

/-- SIIC with the counter at rest loads it, and takes no interrupt (60_exceptions.md R213). -/
theorem step_siic_at_rest {rs : Reg} (hext : s.iicImplemented = true) (hrest : s.iic = 0#16)
    (hi : s.nextInstr = some (.siic rs)) (h : step s = .next t) :
    t.iic = s.readReg rs ∧ t.epc = s.epc ∧ t.iicImplemented = true := by
  have hquiet : s.fires = false := by simp [State.fires, hrest]
  refine ⟨?_, step_epc_of_not_fires hquiet h, (step_iicImplemented h).trans hext⟩
  rw [step_iic hi h, iicAfter]
  simp [hext]

end

/-- Settles O56: the count is that of the run after the SIIC, which loaded it. -/
theorem siicCountsExactly : Obligations.SiicCountsExactly := by
  intro n s t u rs hext hrest hi hstep hrun hnosiic
  obtain ⟨hload, hepc, htext⟩ := step_siic_at_rest hext hrest hi hstep
  obtain ⟨hcount, hquiet⟩ := runsTo_iic_epc hrun htext hnosiic
  rw [← hload, ← hepc]
  refine ⟨fun _ => hcount, fun hn => hquiet (.inl hn), fun hpos hn hrunning => ⟨?handler, ?expired⟩,
    fun hzero => ⟨hquiet (.inr hzero), ?disarmed⟩⟩
  case handler =>
    obtain ⟨k, rfl⟩ := Nat.exists_eq_add_one.mpr hpos
    exact runsTo_pc_of_count_reached hrun htext hnosiic hn.symm hrunning
  case expired => exact BitVec.eq_of_toNat_eq (by rw [hcount]; simp [hn])
  case disarmed => exact BitVec.eq_of_toNat_eq (by rw [hcount]; simp [hzero])

/-! ### A program that does not use the extension -/

/-- A result, with a function applied to the state it answers. -/
def mapNext (f : State → State) (r : Result) : Result :=
  match r with
  | .next t => .next (f t)
  | .fault e => .fault e
  | .refused q => .refused q

section

variable {s : State} {i : Instr}

theorem finishLoad_withExtension (rd : Reg) (a : Word) :
    finishLoad (withExtension s) rd a = mapNext withExtension (finishLoad s rd a) := by
  cases hread : s.dmem.read a with
  | none =>
    rw [finishLoad_of_unwritten hread, finishLoad_of_unwritten (s := withExtension s) hread]
    rfl
  | some v =>
    rw [finishLoad_of_written hread, finishLoad_of_written (s := withExtension s) hread]
    rfl

/-- An instruction that is not SIIC or RTI does not ask for the extension. -/
theorem exec_withExtension (hrti : i ≠ .rti) (hsiic : ∀ rs, i ≠ .siic rs) :
    exec i (withExtension s) = mapNext withExtension (exec i s) := by
  cases i with
  | rti => exact absurd rfl hrti
  | siic rs => exact absurd rfl (hsiic rs)
  | ld => exact finishLoad_withExtension _ _
  | _ => rfl

theorem step_withExtension (hext : s.iicImplemented = false) (hrest : s.iic = 0#16) (hprog : NoSiicNoRti s) :
    step (withExtension s) = mapNext withExtension (step s) := by
  cases hfetch : fetchInstr s with
  | error f =>
    rw [step_of_fetch_error hfetch, step_of_fetch_error (s := withExtension s) hfetch]
    rfl
  | ok i =>
    have hi : s.nextInstr = some i := nextInstr_eq_some.mpr (fetchInstr_eq_ok.mp hfetch)
    obtain ⟨-, w, hw, rfl⟩ := fetchInstr_eq_ok.mp hfetch
    obtain ⟨hrti, hsiic⟩ := hprog _ _ hw
    rw [step_of_not_counting hi (.inl hext), step_of_not_counting (s := withExtension s) hi (.inr hrest)]
    exact exec_withExtension hrti hsiic

theorem run_withExtension (n : Nat) (hext : s.iicImplemented = false) (hrest : s.iic = 0#16)
    (hprog : NoSiicNoRti s) :
    Host.Core.run Sys2Proof.core n (withExtension s) = mapNext withExtension (Host.Core.run Sys2Proof.core n s) := by
  induction n generalizing s with
  | zero => rfl
  | succ n ih =>
    have hsim := step_withExtension hext hrest hprog
    cases hstep : step s with
    | next t =>
      rw [hstep] at hsim
      rw [run_succ_of_next hstep, run_succ_of_next hsim]
      refine ih ((step_iicImplemented hstep).trans hext) ((step_iic_of_not_implemented hext hstep).trans hrest) ?_
      intro a w hw
      rw [step_imem hstep] at hw
      exact hprog a w hw
    | fault f =>
      rw [hstep] at hsim
      rw [run_succ_of_fault hstep, run_succ_of_fault hsim]
      rfl
    | refused q =>
      rw [hstep] at hsim
      rw [run_succ_of_refused hstep, run_succ_of_refused hsim]
      rfl

end

/-- Settles O58: the run with the extension is the run without it, state for state. -/
theorem extensionIsInvisible : Obligations.ExtensionIsInvisible := by
  intro n s hext hrest hprog
  have hsim := run_withExtension n hext hrest hprog
  refine ⟨fun t hrun => ?next, fun f hfault => ?fault⟩
  case next =>
    rw [RunsTo, hsim, show Host.Core.run Sys2Proof.core n s = .next t from hrun]
    rfl
  case fault =>
    rw [hsim, hfault]
    rfl

end Sys2Proof.Proofs

/-! PROOFS. The instruction cycle, the interrupt and reset (10_state.md R30, R31, 60_exceptions.md R214 to R219, R231). The step
whose issue takes the counter from one to zero is the same step with nothing counting, and then the end of the cycle: so the
statements about the interrupt speak of that one state after the instruction. -/

namespace Sys2Proof.Proofs

open Sys2Proof.Machine Sys2Proof.Statements

/-! ### The step that fires -/

section

variable {s t : State} {i : Instr}

theorem fires_of_expiring (hext : s.iicImplemented = true) (hone : s.iic = 1#16) : s.fires = true :=
  fires_iff.mpr ⟨hext, hone⟩

theorem countIssue_of_expiring (hext : s.iicImplemented = true) (hone : s.iic = 1#16) :
    s.countIssue = { s with iic := 0#16 } := by
  simp [State.countIssue, hext, hone, State.setIic]

/-- The issue of the expiring step leaves the state it would have had with the counter at rest. -/
theorem step_of_expiring (hext : s.iicImplemented = true) (hone : s.iic = 1#16) :
    step s = settleInterrupt true (step { s with iic := 0#16 }) := by
  cases hfetch : fetchInstr s with
  | error f =>
    rw [step_of_fetch_error hfetch, step_of_fetch_error (s := { s with iic := 0#16 }) hfetch]
    rfl
  | ok i =>
    have hi : s.nextInstr = some i := nextInstr_eq_some.mpr (fetchInstr_eq_ok.mp hfetch)
    rw [step_of_nextInstr hi, fires_of_expiring hext hone, countIssue_of_expiring hext hone,
      step_of_not_counting (s := { s with iic := 0#16 }) hi (.inr rfl)]

end

/-- Settles O52: the two steps differ in the end of the cycle alone. -/
theorem interruptIsPrecise : Obligations.InterruptIsPrecise := by
  intro s hext hone
  refine ⟨fun u hu => ?next, fun f hf => ?fault⟩
  case next =>
    rw [step_of_expiring hext hone, hu, settleInterrupt_next, settled_true]
    rfl
  case fault =>
    rw [step_of_expiring hext hone, hf]
    rfl

/-- Settles O53: the step with nothing counting left `u`, the interrupt moved its pc to EPC, and RTI moves it back. -/
theorem returnResumesTheProgram : Obligations.ReturnResumesTheProgram := by
  intro s t hext hone hnhalt hstep
  rw [step_of_expiring hext hone] at hstep
  obtain ⟨u, hu, rfl⟩ := settleInterrupt_eq_next.mp hstep
  obtain ⟨i, -, hi, -⟩ := step_eq_next_settled hu
  have hrunning : u.halted = false := by
    rw [← Bool.not_eq_true, step_halted_iff hi hu]
    rintro rfl
    exact hnhalt hi
  have huext : u.iicImplemented = true := (step_iicImplemented hu).trans hext
  simp only [hrunning, Bool.not_false, Bool.and_self, if_true]
  refine ⟨u, hu, rfl, _, exec_rti _, ?_, fun _ => rfl, fun _ => ⟨rfl, rfl⟩, rfl, rfl⟩
  simp [huext]

/-- Settles O54: the instruction halted, so the end of the cycle takes no interrupt. -/
theorem haltWinsAtExpiry : Obligations.HaltWinsAtExpiry := by
  intro s hext hone hhalt
  have hstep := step_of_exec hhalt (exec_halt s.countIssue)
  rw [countIssue_of_expiring hext hone, settled_of_halted rfl] at hstep
  exact ⟨_, hstep, rfl, rfl, rfl, rfl, fun _ => rfl, fun _ => ⟨rfl, rfl⟩, step_of_halted rfl⟩

/-- Settles O55: the load comes after the count of the SIIC's own issue, which decides on the interrupt. -/
theorem siicWhileCounting : Obligations.SiicWhileCounting := by
  intro s rs hext hi
  have hstep := step_of_exec hi (exec_siic rs s.countIssue)
  have hrunning : s.halted = false := halted_of_nextInstr hi
  refine ⟨_, hstep, ?_, fun r => ?_, fun a => ⟨?_, ?_⟩, ?_, fun hone => ?fires, fun hmany => ?quiet⟩
  case fires =>
    rw [fires_of_expiring hext hone, settled_true]
    simp [hrunning, interruptVector]
  case quiet =>
    have hquiet : s.fires = false := by simp [State.fires, hmany]
    simp [hquiet]
  all_goals simp [hext, hrunning]

/-! ### The counter, EPC and the halt state -/

/-- Settles O45: a step that completes ran some instruction, and HALT alone sets the halt state. -/
theorem onlyHaltHalts : Obligations.OnlyHaltHalts := by
  intro s t hstep
  obtain ⟨i, -, hi, -⟩ := step_eq_next_settled hstep
  rw [step_halted_iff hi hstep, hi, Option.some_inj]

/-- Settles O50: such a step leaves the counter as the issue did. -/
theorem everyIssueCounts : Obligations.EveryIssueCounts := by
  intro s t hstep hnsiic
  rw [step_iic_of_not_siic hnsiic hstep, countIssue_iic_toNat]

/-- Settles O51: EPC moves only where the issue fired, and there the step did not halt, for HALT keeps EPC. -/
theorem epcWrittenByInterruptAlone : Obligations.EpcWrittenByInterruptAlone := by
  intro s t hstep hepc
  have hfires : s.fires = true := by
    by_contra hquiet
    exact hepc (step_epc_of_not_fires (Bool.eq_false_of_not_eq_true hquiet) hstep)
  obtain ⟨hext, hone⟩ := fires_iff.mp hfires
  have hnhalt : s.nextInstr ≠ some .halt := by
    intro hhalt
    obtain ⟨u, hu, -, -, -, hkept, -⟩ := haltWinsAtExpiry s hext hone hhalt
    obtain rfl : u = t := Host.Outcome.next.inj (hu.symm.trans hstep)
    exact hepc hkept
  have hrunning : t.halted = false := by
    rw [← Bool.not_eq_true, onlyHaltHalts s t hstep]
    exact hnhalt
  exact ⟨hext, hone, hnhalt, step_pc_of_fires hfires hrunning hstep⟩

/-- Settles O57: without the extension the issue is not counted, nothing fires, and SIIC and RTI end as NOP does. -/
theorem withoutExtensionNoCounter : Obligations.WithoutExtensionNoCounter := by
  intro s hext
  refine ⟨?rti, fun rs => ?siic, fun t hstep => ⟨step_iic_of_not_implemented hext hstep, ?epc⟩⟩
  case rti =>
    rw [exec_rti, hext]
    rfl
  case siic =>
    rw [exec_siic, hext]
    rfl
  case epc =>
    have hquiet : s.fires = false := by simp [State.fires, hext]
    exact step_epc_of_not_fires hquiet hstep

/-! ### The cycle and reset -/

theorem counted_eq_countIssue (s : State) : counted s = s.countIssue := by
  simp [counted, State.countIssue, State.setIic]

/-- Settles O4: the statement's count is the model's, and its condition is that the issue fires and the instruction did not
halt. -/
theorem stepRunsDecodedInstruction : Obligations.StepRunsDecodedInstruction := by
  intro s w hrunning hw
  have hi : s.nextInstr = some (decode w) := nextInstr_eq_some.mpr ⟨hrunning, w, hw, rfl⟩
  rw [counted_eq_countIssue]
  refine ⟨fun u hexec => ?next, fun f hexec => ?fault⟩
  case next =>
    rw [step_of_exec hi hexec, settled]
    simp [State.fires, and_assoc, State.takeInterrupt, interruptVector]
  case fault =>
    rw [step_of_nextInstr hi, hexec]
    rfl

/-- Settles O5: both stops are those of the fetch. -/
theorem noStepWhenHaltedOrNoInstruction : Obligations.NoStepWhenHaltedOrNoInstruction := by
  intro s
  refine ⟨step_of_halted, fun hrunning hnone => step_of_fetch_error ?_⟩
  simp [fetchInstr, hrunning, hnone]

/-- Settles O48: the memories after reset are the images. -/
theorem resetIsCanonical : Obligations.ResetIsCanonical :=
  ⟨⟨Memory.empty_wf, Memory.empty_wf⟩, fun _ _ _ _ _ himem hdmem => ⟨hdmem, himem⟩⟩

/-- Settles O49: the fetch after reset is from address 0 of the image. -/
theorem resetStartsAtAddressZero : Obligations.ResetStartsAtAddressZero := by
  intro b imem dmem regs epc
  exact ⟨rfl, rfl, rfl, rfl, rfl, fun w hw => nextInstr_eq_some.mpr ⟨rfl, w, hw, rfl⟩⟩

end Sys2Proof.Proofs

/-! PROOFS. Encoding and decoding as inverses (30_encoding.md R60 to R73). A word is its fields side by side, so packing the
fields of a word gives the word back, and packing zeros in place of fields that the instruction ignores clears those bits. -/

namespace Sys2Proof.Proofs

open Sys2Proof.Machine Sys2Proof.Statements

/-! ### Words of the J-format, and with ignored low bits -/

theorem decode_packJ_halt (x : BitVec 11) : decode (packJ 0b00000#5 x) = .halt := by
  simp [decode, opField_packJ]

theorem decode_packJ_nop (x : BitVec 11) : decode (packJ 0b00001#5 x) = .nop := by
  simp [decode, opField_packJ]

theorem decode_packJ_rti (x : BitVec 11) : decode (packJ 0b00011#5 x) = .rti := by
  simp [decode, opField_packJ]

theorem decode_packJ_j (disp : BitVec 11) : decode (packJ 0b00100#5 disp) = .j disp := by
  simp [decode, opField_packJ, disp11Field_packJ]

theorem decode_packJ_jal (disp : BitVec 11) : decode (packJ 0b00110#5 disp) = .jal disp := by
  simp [decode, opField_packJ, disp11Field_packJ]

theorem decode_packI2_siic (rs : Reg) (x : BitVec 8) : decode (packI2 0b00010#5 rs.bits x) = .siic rs :=
  decode_packI2 (mk := fun rs _ => .siic rs) (fun w h => by simp [decode, h]) rs x

theorem decode_packI2_jalr (rs : Reg) (imm : BitVec 8) : decode (packI2 0b00111#5 rs.bits imm) = .jalr rs imm :=
  decode_packI2 (fun w h => by simp [decode, h]) rs imm

theorem decode_packI1_stu (rd rs : Reg) (imm : BitVec 5) :
    decode (packI1 0b10011#5 rs.bits rd.bits imm) = .stu rd rs imm :=
  decode_packI1 (fun w h => by simp [decode, h]) rd rs imm

/-- Settles O1: one constructor at a time, by the lemma on the word of each. -/
theorem decodeOfEncode : Obligations.DecodeOfEncode := by
  intro i
  cases i with
  | halt => exact decode_packJ_halt _
  | nop => exact decode_packJ_nop _
  | siic => exact decode_packI2_siic _ _
  | rti => exact decode_packJ_rti _
  | j => exact decode_packJ_j _
  | jr => exact decode_packI2_jr _ _
  | jal => exact decode_packJ_jal _
  | jalr => exact decode_packI2_jalr _ _
  | addi => exact decode_packI1_addi _ _ _
  | subi => exact decode_packI1_subi _ _ _
  | xori => exact decode_packI1_xori _ _ _
  | andni => exact decode_packI1_andni _ _ _
  | beqz => exact decode_packI2_beqz _ _
  | bnez => exact decode_packI2_bnez _ _
  | bltz => exact decode_packI2_bltz _ _
  | bgez => exact decode_packI2_bgez _ _
  | st => exact decode_packI1_st _ _ _
  | ld => exact decode_packI1_ld _ _ _
  | slbi => exact decode_packI2_slbi _ _
  | stu => exact decode_packI1_stu _ _ _
  | roli => exact decode_packI1_roli _ _ _
  | slli => exact decode_packI1_slli _ _ _
  | srai => exact decode_packI1_srai _ _ _
  | srli => exact decode_packI1_srli _ _ _
  | lbi => exact decode_packI2_lbi _ _
  | btr => exact decode_packR_btr _ _ _ _
  | rol => exact decode_packR_rol _ _ _
  | sll => exact decode_packR_sll _ _ _
  | sra => exact decode_packR_sra _ _ _
  | srl => exact decode_packR_srl _ _ _
  | add => exact decode_packR_add _ _ _
  | sub => exact decode_packR_sub _ _ _
  | xor => exact decode_packR_xor _ _ _
  | andn => exact decode_packR_andn _ _ _
  | seq => exact decode_packR_seq _ _ _ _
  | slt => exact decode_packR_slt _ _ _ _
  | sle => exact decode_packR_sle _ _ _ _
  | sco => exact decode_packR_sco _ _ _ _

/-! ### A word and its fields -/

section

variable (w : Word)

theorem packJ_fields : packJ (opField w) (disp11Field w) = w := by
  apply BitVec.eq_of_getLsbD_eq
  intro i hi
  rw [packJ_getLsbD]
  interval_cases i <;> simp [opField, disp11Field]

theorem packI2_fields : packI2 (opField w) (rsField w).bits (imm8Field w) = w := by
  apply BitVec.eq_of_getLsbD_eq
  intro i hi
  rw [packI2_getLsbD]
  interval_cases i <;> simp [opField, rsField, Reg.bits_ofBits, imm8Field]

theorem packI1_fields : packI1 (opField w) (rsField w).bits (rdField1 w).bits (imm5Field w) = w := by
  apply BitVec.eq_of_getLsbD_eq
  intro i hi
  rw [packI1_getLsbD]
  interval_cases i <;> simp [opField, rsField, rdField1, Reg.bits_ofBits, imm5Field]

theorem packR_fields :
    packR (opField w) (rsField w).bits (rtField w).bits (rdField w).bits (extField w) = w := by
  apply BitVec.eq_of_getLsbD_eq
  intro i hi
  rw [packR_getLsbD]
  interval_cases i <;> simp [opField, rsField, rtField, rdField, Reg.bits_ofBits, extField]

theorem opField_toNat : (opField w).toNat = w.toNat / 2048 := by
  simp [opField, Nat.shiftRight_eq_div_pow]
  omega

theorem opField_eq_append {w : Word} {hi : BitVec 2} {lo : BitVec 3} (hhi : (opField w).extractLsb' 3 2 = hi)
    (hlo : (opField w).extractLsb' 0 3 = lo) : opField w = hi ++ lo := by
  subst hhi hlo
  apply BitVec.eq_of_getLsbD_eq
  intro i hi
  rw [BitVec.getLsbD_append]
  interval_cases i <;> simp

/-! ### A word with its ignored bits cleared (30_encoding.md R73) -/

theorem packJ_zero : packJ (opField w) 0#11 = w &&& ~~~0x07FF#16 := by
  apply BitVec.eq_of_getLsbD_eq
  intro i hi
  rw [packJ_getLsbD]
  interval_cases i <;> simp [opField]

theorem packI2_zero : packI2 (opField w) (rsField w).bits 0#8 = w &&& ~~~0x00FF#16 := by
  apply BitVec.eq_of_getLsbD_eq
  intro i hi
  rw [packI2_getLsbD]
  interval_cases i <;> simp [opField, rsField, Reg.bits_ofBits]

theorem packR_zero_rt_ext :
    packR (opField w) (rsField w).bits 0b000#3 (rdField w).bits 0b00#2 = w &&& ~~~0x00E3#16 := by
  apply BitVec.eq_of_getLsbD_eq
  intro i hi
  rw [packR_getLsbD]
  interval_cases i <;> simp [opField, rsField, rdField, Reg.bits_ofBits]

theorem packR_zero_ext :
    packR (opField w) (rsField w).bits (rtField w).bits (rdField w).bits 0b00#2 = w &&& ~~~0x0003#16 := by
  apply BitVec.eq_of_getLsbD_eq
  intro i hi
  rw [packR_getLsbD]
  interval_cases i <;> simp [opField, rsField, rtField, rdField, Reg.bits_ofBits]

end

/-- The ignored bits of a word are those of the bare opcode. -/
theorem ignoredBits_of_opField {w : Word} {op : BitVec 5} (h : opField w = op) :
    ignoredBits w = ignoredBits (packJ op 0#11) := by
  simp only [ignoredBits, ← opField_toNat, opField_packJ, h]

section

variable {w : Word} {op : BitVec 5}

theorem clear_of_no_ignored (hop : opField w = op) (hx : ignoredBits (packJ op 0#11) = 0#16) :
    w &&& ~~~ignoredBits w = w := by
  rw [ignoredBits_of_opField hop, hx, BitVec.not_zero, BitVec.and_allOnes]

theorem packJ_zero_eq_clear (hop : opField w = op) (hx : ignoredBits (packJ op 0#11) = 0x07FF#16) :
    packJ op 0#11 = w &&& ~~~ignoredBits w := by
  rw [ignoredBits_of_opField hop, hx, ← hop, packJ_zero]

theorem packJ_eq_clear (hop : opField w = op) (hx : ignoredBits (packJ op 0#11) = 0#16) :
    packJ op (disp11Field w) = w &&& ~~~ignoredBits w := by
  rw [clear_of_no_ignored hop hx, ← hop, packJ_fields]

theorem packI2_zero_eq_clear (hop : opField w = op) (hx : ignoredBits (packJ op 0#11) = 0x00FF#16) :
    packI2 op (rsField w).bits 0#8 = w &&& ~~~ignoredBits w := by
  rw [ignoredBits_of_opField hop, hx, ← hop, packI2_zero]

theorem packI2_eq_clear (hop : opField w = op) (hx : ignoredBits (packJ op 0#11) = 0#16) :
    packI2 op (rsField w).bits (imm8Field w) = w &&& ~~~ignoredBits w := by
  rw [clear_of_no_ignored hop hx, ← hop, packI2_fields]

theorem packI1_eq_clear (hop : opField w = op) (hx : ignoredBits (packJ op 0#11) = 0#16) :
    packI1 op (rsField w).bits (rdField1 w).bits (imm5Field w) = w &&& ~~~ignoredBits w := by
  rw [clear_of_no_ignored hop hx, ← hop, packI1_fields]

theorem packR_zero_rt_ext_eq_clear (hop : opField w = op) (hx : ignoredBits (packJ op 0#11) = 0x00E3#16) :
    packR op (rsField w).bits 0b000#3 (rdField w).bits 0b00#2 = w &&& ~~~ignoredBits w := by
  rw [ignoredBits_of_opField hop, hx, ← hop, packR_zero_rt_ext]

theorem packR_zero_ext_eq_clear (hop : opField w = op) (hx : ignoredBits (packJ op 0#11) = 0x0003#16) :
    packR op (rsField w).bits (rtField w).bits (rdField w).bits 0b00#2 = w &&& ~~~ignoredBits w := by
  rw [ignoredBits_of_opField hop, hx, ← hop, packR_zero_ext]

theorem packR_eq_clear {ext : BitVec 2} (hop : opField w = op) (hext : extField w = ext)
    (hx : ignoredBits (packJ op 0#11) = 0#16) :
    packR op (rsField w).bits (rtField w).bits (rdField w).bits ext = w &&& ~~~ignoredBits w := by
  rw [clear_of_no_ignored hop hx, ← hop, ← hext, packR_fields]

end

/-- Settles O2: along the rows of the opcode map, each by the lemma on its format. -/
theorem encodeOfDecodeClearsIgnoredBits : Obligations.EncodeOfDecodeClearsIgnoredBits := by
  intro w
  unfold decode
  split
  -- HALT, NOP, RTI
  case h_1 hhi hlo | h_2 hhi hlo | h_4 hhi hlo => exact packJ_zero_eq_clear (opField_eq_append hhi hlo) rfl
  -- J, JAL
  case h_5 hhi hlo | h_7 hhi hlo => exact packJ_eq_clear (opField_eq_append hhi hlo) rfl
  -- SIIC
  case h_3 hhi hlo => exact packI2_zero_eq_clear (opField_eq_append hhi hlo) rfl
  -- JR, JALR, the branches, SLBI, LBI
  case h_6 hhi hlo | h_8 hhi hlo | h_13 hhi hlo | h_14 hhi hlo | h_15 hhi hlo | h_16 hhi hlo | h_19 hhi hlo
      | h_25 hhi hlo => exact packI2_eq_clear (opField_eq_append hhi hlo) rfl
  -- ADDI, SUBI, XORI, ANDNI; ST, LD, STU; ROLI, SLLI, SRAI, SRLI
  case h_9 hhi hlo | h_10 hhi hlo | h_11 hhi hlo | h_12 hhi hlo | h_17 hhi hlo | h_18 hhi hlo | h_20 hhi hlo
      | h_21 hhi hlo | h_22 hhi hlo | h_23 hhi hlo | h_24 hhi hlo =>
    exact packI1_eq_clear (opField_eq_append hhi hlo) rfl
  -- BTR
  case h_26 hhi hlo => exact packR_zero_rt_ext_eq_clear (opField_eq_append hhi hlo) rfl
  -- the rows of 11010 and of 11011, which the extension tells apart
  case h_27 hhi hlo | h_28 hhi hlo =>
    split
    all_goals
      next hext => exact packR_eq_clear (opField_eq_append hhi hlo) hext rfl
  -- SEQ, SLT, SLE, SCO
  case h_29 hhi hlo | h_30 hhi hlo | h_31 hhi hlo | h_32 hhi hlo =>
    exact packR_zero_ext_eq_clear (opField_eq_append hhi hlo) rfl

end Sys2Proof.Proofs

/-! PROOFS. The special, interrupt and jump instructions, STU and the shift immediates one by one (40_jumps.md, 46_special.md,
47_interrupt_instructions.md, 42_load_store.md R132, 41_alu_immediate.md R119), and short sequences of instructions that the spec
derives. -/

namespace Sys2Proof.Proofs

open Sys2Proof.Machine Sys2Proof.Statements

/-! ### HALT, NOP, SIIC, RTI -/

/-- Settles O7: HALT sets the halt state and moves the pc on, and a halted state takes no step. -/
theorem haltStopsAfterItself : Obligations.HaltStopsAfterItself := by
  intro s x
  exact ⟨decode_packJ_halt x, _, exec_halt s, rfl, rfl, fun _ => rfl, rfl, rfl, rfl, fun _ => ⟨rfl, rfl⟩,
    step_of_halted rfl⟩

/-- Settles O8: NOP only sets the pc, to the next sequential address. -/
theorem nopOnlyAdvances : Obligations.NopOnlyAdvances := by
  intro s x
  exact ⟨decode_packJ_nop x, _, exec_nop s, setPc_goesTo s _⟩

/-- Settles O9: SIIC sets IIC, to itself without the extension, and moves the pc on. -/
theorem siicLoadsTheCounter : Obligations.SiicLoadsTheCounter := by
  intro s rs x
  exact ⟨decode_packI2_siic rs x, _, exec_siic rs s, rfl, rfl, fun _ => rfl, rfl, rfl, rfl, fun _ => ⟨rfl, rfl⟩⟩

/-- Settles O10: RTI only sets the pc. -/
theorem rtiLoadsThePc : Obligations.RtiLoadsThePc := by
  intro s x
  exact ⟨decode_packJ_rti x, _, exec_rti s, setPc_goesTo s _⟩

/-! ### Jumps -/

/-- The extension to a word keeps the signed value (00_scope.md R9). -/
theorem wordOf_toInt_disp11 (disp : BitVec 11) : wordOf disp.toInt = sext11 disp := rfl

/-- The target of J and JAL in exact integers, modulo 2^16 (40_jumps.md R100, R102). -/
theorem jumpTarget_eq_wordOf (s : State) (disp : BitVec 11) :
    s.jumpTarget disp = wordOf (s.pc.toNat + 1 + disp.toInt) := by
  rw [wordOf_add, wordOf_add, wordOf_toNat, wordOf_toInt_disp11, State.jumpTarget]
  rfl

/-- The link and the pc are the whole effect of a jump with a link. -/
theorem completes_linksAndGoesTo {i : Instr} {s : State} {a : Word} (h : exec i s = finishJumpAndLink s a) :
    Completes i s fun t => LinksAndGoesTo s t a := by
  refine ⟨_, h.trans (finishJumpAndLink_eq_next.mpr rfl), ?_, fun r hr => ?_, rfl, ⟨rfl, rfl, rfl, rfl⟩,
    fun _ => ⟨rfl, rfl⟩⟩
  · exact RegFile.set_self_readReg s linkReg _
  · exact State.writeReg_readReg_ne s linkReg r _ hr

/-- Settles O11: the target is the word of the exact sum. -/
theorem jumpAndJumpAndLink : Obligations.JumpAndJumpAndLink := by
  intro s disp
  rw [← jumpTarget_eq_wordOf]
  exact ⟨decode_packJ_j disp, decode_packJ_jal disp, ⟨_, exec_j disp s, setPc_goesTo s _⟩,
    completes_linksAndGoesTo (exec_jal disp s)⟩

/-- Settles O13: the target is a value of the state before the link is written. -/
theorem jumpAndLinkRegister : Obligations.JumpAndLinkRegister := by
  intro s rs imm
  rw [← registerTarget_eq_wordOf]
  exact ⟨decode_packI2_jalr rs imm, completes_linksAndGoesTo (exec_jalr rs imm s)⟩

/-- Settles O14: R7 holds the link, and JR with a zero immediate goes to the register's value. -/
theorem callThenReturn : Obligations.CallThenReturn := by
  intro s t u disp hcall hr7
  obtain ⟨t', hexec, hlink, -⟩ := completes_linksAndGoesTo (exec_jal disp s)
  obtain rfl : t' = t := Host.Outcome.next.inj (hexec.symm.trans hcall)
  have htarget : u.registerTarget .r7 0#8 = s.pc + 1#16 := by
    rw [State.registerTarget, hr7, hlink]
    exact BitVec.add_zero _
  exact ⟨_, exec_jr .r7 0#8 u, htarget ▸ setPc_goesTo u _⟩

/-! ### The shift immediates -/

theorem mod_sixteen_flip_bit_four (imm : BitVec 5) : (imm ^^^ 0b10000#5).toNat % 16 = imm.toNat % 16 := by
  revert imm
  decide

theorem rotateLeft_zero (a : Word) : rotateLeft a 0 = a := by
  rw [rotateLeft, BitVec.ushiftRight_eq_zero (Nat.le_refl 16)]
  simp

theorem shiftLeft_zero (a : Word) : shiftLeft a 0 = a := BitVec.shiftLeft_zero a

theorem shiftRightArith_zero (a : Word) : shiftRightArith a 0 = a := BitVec.sshiftRight_zero

theorem shiftRightLogical_zero (a : Word) : shiftRightLogical a 0 = a := BitVec.ushiftRight_zero a

/-- A shift immediate that uses of its immediate only the value modulo 16, by a shift that does nothing for 0. -/
theorem shiftImmediate_ignores_bit_four {op : Reg → Reg → BitVec 5 → Instr} {shift : Word → Nat → Word}
    (hexec : ∀ rd rs imm s, exec (op rd rs imm) s = finishReg s rd (shift (s.readReg rs) (imm.toNat % 16)))
    (hzero : ∀ a, shift a 0 = a) (rd rs : Reg) (imm : BitVec 5) (s : State) :
    exec (op rd rs imm) s = exec (op rd rs (imm ^^^ 0b10000#5)) s ∧
    (imm.toNat % 16 = 0 → Completes (op rd rs imm) s fun t => WritesOnly s t rd (s.readReg rs)) := by
  refine ⟨?_, fun hamount => completes_writesOnly ?_⟩
  · rw [hexec, hexec, mod_sixteen_flip_bit_four]
  · rw [hexec, hamount, hzero]

/-- Settles O21: each of the four shifts by `imm5[3:0]`, and by 0 is the identity. -/
theorem shiftImmediatesIgnoreBitFour : Obligations.ShiftImmediatesIgnoreBitFour := by
  intro s rd rs imm op hop
  simp only [List.mem_cons, List.not_mem_nil, or_false] at hop
  obtain rfl | rfl | rfl | rfl := hop
  · exact shiftImmediate_ignores_bit_four exec_roli rotateLeft_zero rd rs imm s
  · exact shiftImmediate_ignores_bit_four exec_slli shiftLeft_zero rd rs imm s
  · exact shiftImmediate_ignores_bit_four exec_srai shiftRightArith_zero rd rs imm s
  · exact shiftImmediate_ignores_bit_four exec_srli shiftRightLogical_zero rd rs imm s

/-! ### The store with update -/

/-- Settles O24: the store takes the old value of Rd, and then the base register is the one register written. -/
theorem storeWithUpdate : Obligations.StoreWithUpdate := by
  intro s rd rs imm
  have ⟨hbase, hothers, hpc, hspecials, _⟩ := writeReg_advance_writesOnly
    (s.storeWord (s.effectiveAddress rs imm) (s.readReg rd)) rs (s.effectiveAddress rs imm)
  exact ⟨decode_packI1_stu rd rs imm, effectiveAddress_eq_wordOf s rs imm, _, exec_stu rd rs imm s,
    SameMemories.storesOnly ⟨rfl, rfl⟩, hbase, hothers, hpc, hspecials⟩

/-- Settles O26: the load's address is the pushed pointer, which is where the store put the old Rd. -/
theorem pushThenLoad : Obligations.PushThenLoad := by
  intro s rd rs q
  obtain ⟨-, -, t, hpush, ⟨hpushed, -⟩, hpointer, -⟩ := storeWithUpdate s rd rs 0b11111#5
  have haddr : t.effectiveAddress rs 0#5 = s.effectiveAddress rs 0b11111#5 := by
    rw [State.effectiveAddress, hpointer]
    exact BitVec.add_zero _
  rw [← haddr] at hpushed
  have hload : exec (.ld q rs 0#5) t = finishReg t q (s.readReg rd) := finishLoad_of_written hpushed
  refine ⟨t, _, hpush, ?_, hload, ?_⟩
  · rw [hpointer, State.effectiveAddress, BitVec.sub_eq_add_neg]
    rfl
  · rw [State.advance_readReg, RegFile.set_self_readReg]

/-! ### Sequences of register instructions -/

/-- The carry and the wrapped sum are the two digits of the exact sum, in base 65536. -/
theorem carryOut_add_toNat (a b : Word) :
    65536 * (truthWord (carryOut a b)).toNat + (a + b).toNat = a.toNat + b.toNat := by
  have ha := a.isLt
  have hb := b.isLt
  rw [BitVec.toNat_add]
  by_cases hcarry : 65536 ≤ a.toNat + b.toNat <;> simp [truthWord, carryOut, hcarry] <;> omega

/-- Settles O41: SCO changes neither operand of the ADD, and the ADD leaves the carry. -/
theorem scoAndAddGiveTheExactSum : Obligations.ScoAndAddGiveTheExactSum := by
  intro s rc rd rs rt hcs hct hcd
  obtain ⟨t, hsco, hcarry, hst, -⟩ :=
    completes_writesOnly (i := .sco rc rs rt) (s := s) (v := truthWord (carryOut (s.readReg rs) (s.readReg rt))) rfl
  obtain ⟨u, hadd, hsum, htu, -⟩ :=
    completes_writesOnly (i := .add rd rs rt) (s := t) (v := t.readReg rs + t.readReg rt) rfl
  refine ⟨t, hsco, u, hadd, ?_⟩
  show 65536 * (u.readReg rc).toNat + (u.readReg rd).toNat = _
  rw [hsum, htu rc hcd, hcarry, hst rs hcs.symm, hst rt hct.symm]
  exact carryOut_add_toNat _ _

/-- Minus one less a word is its complement, bit by bit. -/
theorem exec_subi_minus_one (rd ra : Reg) (s : State) :
    exec (.subi rd ra 0b11111#5) s = finishReg s rd (~~~s.readReg ra) := by
  rw [← BitVec.allOnes_sub_eq_not]
  rfl

theorem andNot_xor_eq_or (a b : Word) : (a &&& ~~~b) ^^^ b = a ||| b := by
  apply BitVec.eq_of_getLsbD_eq
  intro i hi
  simp only [BitVec.getLsbD_xor, BitVec.getLsbD_and, BitVec.getLsbD_not, BitVec.getLsbD_or, hi, decide_true,
    Bool.true_and]
  cases a.getLsbD i <;> cases b.getLsbD i <;> rfl

/-- Settles O42: the first instruction of each pair leaves the operand that the second one reads again. -/
theorem notAndOrIdioms : Obligations.NotAndOrIdioms := by
  intro s rd ra rb tmp
  refine ⟨completes_readReg_of (P := (· = _)) (exec_subi_minus_one rd ra s) rfl, fun hne => ?and, fun hne => ?or⟩
  case and =>
    obtain ⟨t, hfirst, hnot, hst, -⟩ := completes_writesOnly (exec_subi_minus_one tmp rb s)
    refine ⟨t, hfirst, completes_readReg_of (P := (· = _)) (exec_andn rd ra tmp t) ?_⟩
    rw [hnot, hst ra hne.symm, BitVec.not_not]
  case or =>
    obtain ⟨t, hfirst, handn, hst, -⟩ := completes_writesOnly (exec_andn tmp ra rb s)
    refine ⟨t, hfirst, completes_readReg_of (P := (· = _)) (exec_xor rd tmp rb t) ?_⟩
    rw [handn, hst rb hne.symm, andNot_xor_eq_or]

end Sys2Proof.Proofs

/-! PROOFS. What the spec's tables say of all instructions: that they complete (60_exceptions.md R210), where the pc goes
(10_state.md R24), and which registers they use (10_state.md R22). Each is told by how the instruction ends, so the case splits
go by the endings. -/

namespace Sys2Proof.Proofs

open Sys2Proof.Machine Sys2Proof.Statements

/-! ### Completion -/

/-- LD from a word nothing has written is the one way for an instruction not to complete (U3). -/
theorem exec_completes_or_unwritten (i : Instr) (s : State) :
    (∃ t, exec i s = .next t) ∨
      ∃ rd rs imm, i = .ld rd rs imm ∧ s.dmem.read (s.effectiveAddress rs imm) = none ∧
        exec i s = .fault (.unwrittenData (s.effectiveAddress rs imm)) := by
  cases i with
  | ld rd rs imm =>
    cases hread : s.dmem.read (s.effectiveAddress rs imm) with
    | none => exact .inr ⟨rd, rs, imm, rfl, hread, finishLoad_of_unwritten hread⟩
    | some v => exact .inl ⟨_, finishLoad_of_written hread⟩
  | rti => exact .inl ⟨_, exec_rti s⟩
  | _ => exact .inl ⟨_, rfl⟩

/-- Settles O6: the one other outcome is a fault, never a refusal. -/
theorem everyInstructionCompletes : Obligations.EveryInstructionCompletes := by
  intro i s
  obtain ⟨t, hexec⟩ | ⟨rd, rs, imm, rfl, hnone, hexec⟩ := exec_completes_or_unwritten i s
  case inl => exact ⟨fun _ => ⟨t, hexec⟩, fun q => by simp [hexec]⟩
  case inr => exact ⟨fun hwritten => absurd hnone (hwritten rd rs imm rfl), fun q => by simp [hexec]⟩

/-! ### The next pc -/

/-- The next sequential address in exact integers, of the signed value of the pc. -/
theorem wordOf_pc_add_one (s : State) : wordOf (s.pc.toInt + 1) = s.pc + 1#16 := by
  rw [wordOf_add, wordOf_toInt]
  rfl

theorem wordOf_jumpTarget (s : State) (disp : BitVec 11) :
    wordOf (s.pc.toInt + 1 + disp.toInt) = s.jumpTarget disp := by
  rw [wordOf_add, wordOf_pc_add_one, wordOf_toInt_disp11, State.jumpTarget, State.nextSequential]

theorem wordOf_branchTarget (s : State) (imm : BitVec 8) :
    wordOf (s.pc.toInt + 1 + imm.toInt) = s.branchTarget imm := by
  rw [wordOf_add, wordOf_pc_add_one, wordOf_toInt_imm8, State.branchTarget, State.nextSequential]

theorem wordOf_registerTarget (s : State) (rs : Reg) (imm : BitVec 8) :
    wordOf ((s.readReg rs).toInt + imm.toInt) = s.registerTarget rs imm := by
  rw [wordOf_add, wordOf_toInt, wordOf_toInt_imm8, State.registerTarget]

/-- Settles O44: after unfolding the table's row, each ending sets the pc to the word of the row's exact sum. -/
theorem nextPcIsAsTabled : Obligations.NextPcIsAsTabled := by
  intro i s t h
  cases i with
  | j disp | jal disp =>
    obtain rfl := Host.Outcome.next.inj h
    exact (wordOf_jumpTarget s disp).symm
  | jr rs imm | jalr rs imm =>
    obtain rfl := Host.Outcome.next.inj h
    exact (wordOf_registerTarget s rs imm).symm
  | beqz rs imm | bnez rs imm | bltz rs imm | bgez rs imm =>
    obtain rfl := finishBranch_eq_next.mp h
    rw [nextPcOf, wordOf_branchTarget, wordOf_pc_add_one, State.setPc_pc]
    simp [isZero, isNonZero, isNegative, isNonNegative]
  | rti =>
    rw [exec_rti] at h
    obtain rfl := Host.Outcome.next.inj h
    rw [nextPcOf, wordOf_pc_add_one, State.setPc_pc]
  | ld rd rs imm =>
    obtain ⟨v, -, rfl⟩ := finishLoad_eq_next.mp h
    exact (wordOf_pc_add_one s).symm
  | siic rs =>
    rw [exec_siic] at h
    obtain rfl := Host.Outcome.next.inj h
    exact (wordOf_pc_add_one s).symm
  | _ =>
    obtain rfl := Host.Outcome.next.inj h
    exact (wordOf_pc_add_one s).symm

/-! ### The use of registers -/

/-- What the table of 10_state.md R22 claims of an instruction that writes the registers `writes`, completes from `s` in `t`,
and runs again with the register file `f`. -/
def UsesAsTabled (writes : List Reg) (i : Instr) (s t : State) (f : RegFile) : Prop :=
  (∀ r, r ∉ writes → t.readReg r = s.readReg r) ∧
  Completes i { s with regs := f } fun t' =>
    (∀ r, r ∈ writes → t'.readReg r = t.readReg r) ∧
    t'.pc = t.pc ∧ t'.iic = t.iic ∧ t'.epc = t.epc ∧ t'.halted = t.halted ∧ ∀ a, t'.dmem.read a = t.dmem.read a

section

variable {i : Instr} {s t u : State} {f : RegFile} {rd : Reg} {v : Word}

/-- An instruction that writes no register, and does the same to the rest of the state with the registers `f`. -/
theorem usesAsTabled_of_no_write (hregs : t.regs = s.regs)
    (h : exec i { s with regs := f } = .next { t with regs := f }) :
    UsesAsTabled [] i s t f := by
  refine ⟨fun r _ => ?_, _, h, by simp, rfl, rfl, rfl, rfl, fun _ => rfl⟩
  simp only [State.readReg, hregs]

/-- An instruction that writes `v` to `rd` besides what it does to the rest of the state, and both alike with the registers
`f`. -/
theorem usesAsTabled_of_write (hregs : u.regs = s.regs)
    (h : exec i { s with regs := f } = .next (({ u with regs := f } : State).writeReg rd v)) :
    UsesAsTabled [rd] i s (u.writeReg rd v) f := by
  refine ⟨fun r hr => ?_, _, h, fun r hr => ?_, rfl, rfl, rfl, rfl, fun _ => rfl⟩
  · rw [State.writeReg_readReg_ne _ _ _ _ (by simpa using hr)]
    simp only [State.readReg, hregs]
  · obtain rfl := List.mem_singleton.mp hr
    rw [RegFile.set_self_readReg, RegFile.set_self_readReg]

/-- An instruction that ends by writing a register with a value that is the same for the registers `f`. -/
theorem usesAsTabled_of_finishReg {value : State → Word} (hexec : ∀ s, exec i s = finishReg s rd (value s))
    (hvalue : value { s with regs := f } = value s) (h : exec i s = .next t) : UsesAsTabled [rd] i s t f := by
  obtain rfl := finishReg_eq_next.mp ((hexec s).symm.trans h)
  exact usesAsTabled_of_write (u := s.advance) rfl (hvalue ▸ hexec { s with regs := f })

/-- A branch whose condition is the same for the registers `f`. -/
theorem usesAsTabled_of_finishBranch {taken : State → Bool} {imm : BitVec 8}
    (hexec : ∀ s, exec i s = finishBranch s (taken s) (s.branchTarget imm))
    (htaken : taken { s with regs := f } = taken s) (h : exec i s = .next t) : UsesAsTabled [] i s t f := by
  obtain rfl := finishBranch_eq_next.mp ((hexec s).symm.trans h)
  exact usesAsTabled_of_no_write rfl (htaken ▸ hexec { s with regs := f })

end

/-- Settles O43: by how each instruction ends, with the values it reads the same for the registers `f`. -/
theorem registerUseIsAsTabled : Obligations.RegisterUseIsAsTabled := by
  intro i s t f h hreads
  show UsesAsTabled (registerUse s.iicImplemented i).2 i s t f
  cases i with
  | addi rd rs imm | subi rd rs imm | xori rd rs imm | andni rd rs imm | roli rd rs imm | slli rd rs imm
  | srai rd rs imm | srli rd rs imm | slbi rs imm | btr rd rs =>
    have hrs := hreads rs (List.mem_singleton_self rs)
    exact usesAsTabled_of_finishReg (fun _ => rfl) (by simp only [hrs]) h
  | rol rd rs rt | sll rd rs rt | sra rd rs rt | srl rd rs rt | add rd rs rt | sub rd rs rt | xor rd rs rt
  | andn rd rs rt | seq rd rs rt | slt rd rs rt | sle rd rs rt | sco rd rs rt =>
    have hrs := hreads rs (.head _)
    have hrt := hreads rt (.tail _ (.head _))
    exact usesAsTabled_of_finishReg (fun _ => rfl) (by simp only [hrs, hrt]) h
  | lbi rs imm => exact usesAsTabled_of_finishReg (fun _ => rfl) rfl h
  | beqz rs imm | bnez rs imm | bltz rs imm | bgez rs imm =>
    have hrs := hreads rs (List.mem_singleton_self rs)
    exact usesAsTabled_of_finishBranch (fun _ => rfl) (by simp only [hrs]) h
  | halt | nop | j disp =>
    obtain rfl := Host.Outcome.next.inj h
    exact usesAsTabled_of_no_write rfl rfl
  | rti =>
    rw [exec_rti] at h
    obtain rfl := Host.Outcome.next.inj h
    exact usesAsTabled_of_no_write rfl (exec_rti _)
  | jr rs imm =>
    have hrs := hreads rs (List.mem_singleton_self rs)
    obtain rfl := Host.Outcome.next.inj h
    exact usesAsTabled_of_no_write rfl (by rw [exec_jr, State.registerTarget, hrs]; rfl)
  | siic rs =>
    have hload : (if s.iicImplemented then ({ s with regs := f } : State).readReg rs else s.iic) =
        if s.iicImplemented then s.readReg rs else s.iic := by
      split
      case isTrue hext => exact hreads rs (by simp [registerUse, hext])
      case isFalse => rfl
    rw [exec_siic] at h
    obtain rfl := Host.Outcome.next.inj h
    refine usesAsTabled_of_no_write rfl ?_
    rw [exec_siic, hload]
    rfl
  | jal disp =>
    obtain rfl := Host.Outcome.next.inj h
    exact usesAsTabled_of_write (u := s.setPc (s.jumpTarget disp)) rfl rfl
  | jalr rs imm =>
    have hrs := hreads rs (List.mem_singleton_self rs)
    obtain rfl := Host.Outcome.next.inj h
    exact usesAsTabled_of_write (u := s.setPc (s.registerTarget rs imm)) rfl
      (by rw [exec_jalr, State.registerTarget, hrs]; rfl)
  | ld rd rs imm =>
    have hrs := hreads rs (List.mem_singleton_self rs)
    obtain ⟨v, hread, rfl⟩ := finishLoad_eq_next.mp h
    refine usesAsTabled_of_write (u := s.advance) rfl (finishLoad_of_written ?_)
    rw [State.effectiveAddress, hrs]
    exact hread
  | st rd rs imm =>
    have hrs := hreads rs (.head _)
    have hrd := hreads rd (.tail _ (.head _))
    obtain rfl := Host.Outcome.next.inj h
    exact usesAsTabled_of_no_write rfl (by rw [exec_st, State.effectiveAddress, hrs, hrd]; rfl)
  | stu rd rs imm =>
    have hrs := hreads rs (.head _)
    have hrd := hreads rd (.tail _ (.head _))
    obtain rfl := Host.Outcome.next.inj h
    exact usesAsTabled_of_write (u := (s.storeWord (s.effectiveAddress rs imm) (s.readReg rd)).advance) rfl
      (by rw [exec_stu, State.effectiveAddress, hrs, hrd]; rfl)

end Sys2Proof.Proofs
